-- ==== Sys2Proof/Word.lean ====
section
/-! DEFINITION. The widths of spec/ 00_scope.md rule R5 and 30_encoding.md rule R45: buffer words, channels, requests. -/

namespace Sys2Proof

/-- A 32-bit value: a buffer word, a packed colour, a coordinate component, an operand field or a
word index (`WORD_WIDTH = COORD_WIDTH = INDEX_WIDTH = 32`, R5). -/
abbrev Word := BitVec 32

/-- An 8-bit unsigned colour channel (`CHANNEL_WIDTH = 8`, R5). -/
abbrev Channel := BitVec 8

/-- A 130-bit request `REQ` (R45). -/
abbrev Req := BitVec 130

end Sys2Proof
end

