-- ==== Sys2Proof/Config.lean ====
section
/-! DEFINITION. What an implementation fixes (00_scope.md rule R5) and the free values the spec leaves open (93_implementation_defined.md). -/

namespace Sys2Proof

/-- The elaboration-time parameters of R5: image width and height in pixels, and the two constant
channels. They are natural numbers; which values are legal is rule R6 (`Machine.Params.legal`). -/
structure Params where
  /-- `W`, the image width in pixels. -/
  width : Nat
  /-- `H`, the image height in pixels. -/
  height : Nat
  /-- `B_VALUE`, the constant blue channel. -/
  bValue : Nat
  /-- `A_VALUE`, the constant alpha channel. -/
  aValue : Nat
  deriving DecidableEq, Repr

/-- The values R5 gives this hardware. -/
def Params.thisHardware : Params :=
  { width := 256, height := 256, bValue := 128, aValue := 255 }

/-- `SCALE_MAX`, the scaler's multiplier: fixed, not a parameter (R5). -/
def Config.scaleMax : Nat := 255

/-- The number of coordinate values, `2 ^ COORD_WIDTH` (R5, 92 D2). -/
def Config.coordLimit : Nat := 2 ^ 32

/-- The number of index-port values, `2 ^ INDEX_WIDTH` (R5, 92 D5). -/
def Config.indexLimit : Nat := 2 ^ 32

/-- `TILE_X` and `TILE_Y`: information only, read by no rule of the block (R5, R96). -/
def Config.tileSide : Nat := 8

/-- FREE VALUE (log 4): what word `j` of the bound buffer numbered `id` holds while nothing has
written it; the launch argument `buf0` may hold any value (R22, 92 D8). -/
opaque Config.unwritten (id j : Nat) : Word

/-- FREE VALUE (log 12): which pending invocation the dispatcher runs next, taken modulo how many
are pending; R36 fixes no order. -/
opaque Config.pick (draw : Nat) : Nat

/-- FREE VALUE (log 13): whether a host read made while a dispatch is in flight sees the writes made
so far or the word as it was before the dispatch; R38 admits both. -/
opaque Config.readSeesWrites (draw : Nat) : Bool

/-- FREE VALUE (log 14): whether word `j` of the grid keeps its value from before the dispatch when a
reset ends the dispatch; R101 admits both, independently for each word. -/
opaque Config.resetKeepsOld (draw j : Nat) : Bool

end Sys2Proof
end

