-- ==== Sys2Proof/Syntax.lean ====
section
/-! DEFINITION. The four operations of 30_encoding.md rule R46, with every operand field of rule R45's request, the ignored ones too. -/

namespace Sys2Proof

/-- One constructor per row of spec/opcode_table.json. Fields stand in the order `opa`, `opb`,
`opc`, `opd`. A field R47 marks *ignored* is kept, so that no bit of a request is lost (log 18); no
meaning reads it. -/
inductive Instr where
  /-- `INVOKE x, y, z` (R71); `z` and `opd` are ignored. -/
  | invoke (x y z opd : Word)
  /-- `MAP_INDEX x, y` (R57); `opc` and `opd` are ignored. -/
  | mapIndex (x y opc opd : Word)
  /-- `SCALE c, d` (R61): coordinate `c`, dimension `d`; `opc` and `opd` are ignored. -/
  | scale (c d opc opd : Word)
  /-- `PACK r, g, b, a` (R67): the whole operand fields; bits 31 to 8 of each must be zero (R52). -/
  | pack (r g b a : Word)
  deriving DecidableEq, Repr

end Sys2Proof
end

