-- ==== Sys2Proof/WellFormed.lean ====
section
/-! DEFINITION. Which instruction terms spell an operation: 30_encoding.md rule R52. -/

namespace Sys2Proof

/-- R52: only `PACK` can fail to spell an operation, by a channel operand of 256 or more. A `SCALE`
with `c ≥ d` is refused by value, not by spelling, so it is well-formed. -/
def Instr.wellFormed : Instr → Bool
  | .invoke _ _ _ _ => true
  | .mapIndex _ _ _ _ => true
  | .scale _ _ _ _ => true
  | .pack r g b a =>
    decide (r.toNat < 256) && decide (g.toNat < 256) && decide (b.toNat < 256) &&
      decide (a.toNat < 256)

end Sys2Proof
end

