-- ==== Sys2Proof/Decode.lean ====
section
/-! DEFINITION. The decoder and the encoder of the request format: 30_encoding.md rules R45, R46, R47, R52, R56. -/

namespace Sys2Proof

/-- Why a request spells no operation (R52, R56). -/
inductive DecodeError where
  /-- A `PACK` request with a nonzero bit in bits 31 to 8 of an operand. -/
  | packOperandWidth
  deriving DecidableEq, Repr

/-- Field `op`, bits 1 to 0 (R45). -/
def Req.op (q : Req) : BitVec 2 := q.extractLsb' 0 2
/-- Field `opa`, bits 33 to 2 (R45). -/
def Req.opa (q : Req) : Word := q.extractLsb' 2 32
/-- Field `opb`, bits 65 to 34 (R45). -/
def Req.opb (q : Req) : Word := q.extractLsb' 34 32
/-- Field `opc`, bits 97 to 66 (R45). -/
def Req.opc (q : Req) : Word := q.extractLsb' 66 32
/-- Field `opd`, bits 129 to 98 (R45). -/
def Req.opd (q : Req) : Word := q.extractLsb' 98 32

/-- The request with these five fields: the concatenation, `opd` most significant (R45, R7). -/
def Req.ofFields (op : BitVec 2) (opa opb opc opd : Word) : Req :=
  opd ++ opc ++ opb ++ opa ++ op

/-- Bits 31 to 8 of an operand field are zero, so it holds an 8-bit channel (R47, R52). -/
def isChannel (v : Word) : Bool := v.extractLsb' 8 24 == 0

/-- The operation code of each operation (R46). -/
def Instr.opCode : Instr → BitVec 2
  | .invoke _ _ _ _ => 0
  | .mapIndex _ _ _ _ => 1
  | .scale _ _ _ _ => 2
  | .pack _ _ _ _ => 3

/-- The decoder: selects on `op` alone, but for `PACK`'s operand check (R46, R47, R56). -/
def decode (q : Req) : Except DecodeError Instr :=
  if q.op = 0 then .ok (.invoke q.opa q.opb q.opc q.opd)
  else if q.op = 1 then .ok (.mapIndex q.opa q.opb q.opc q.opd)
  else if q.op = 2 then .ok (.scale q.opa q.opb q.opc q.opd)
  else if isChannel q.opa && isChannel q.opb && isChannel q.opc && isChannel q.opd then
    .ok (.pack q.opa q.opb q.opc q.opd)
  else .error .packOperandWidth

/-- The encoder, from the same table (R45, R46, R47). -/
def encode : Instr → Req
  | .invoke x y z opd => Req.ofFields 0 x y z opd
  | .mapIndex x y opc opd => Req.ofFields 1 x y opc opd
  | .scale c d opc opd => Req.ofFields 2 c d opc opd
  | .pack r g b a => Req.ofFields 3 r g b a

/-- The opcode table's `mask` of an operation's row (spec/opcode_table.json). -/
def Instr.tableMask : Instr → Req
  | .invoke _ _ _ _ => 0x3
  | .mapIndex _ _ _ _ => 0x3
  | .scale _ _ _ _ => 0x3
  | .pack _ _ _ _ => 0x3FFFFFC03FFFFFC03FFFFFC03FFFFFC03

/-- The opcode table's `match` of an operation's row (spec/opcode_table.json). -/
def Instr.tableMatch : Instr → Req
  | .invoke _ _ _ _ => 0x0
  | .mapIndex _ _ _ _ => 0x1
  | .scale _ _ _ _ => 0x2
  | .pack _ _ _ _ => 0x3

/-- The request whose bits are those of `w` below `nbits`, the bits above `nbits` zero. -/
def Req.ofTableWord (nbits w : Nat) : Req := BitVec.ofNat 130 (w % 2 ^ nbits)

/-- What the decoder reads from a table word. A request has 130 bits, so a number with a bit above
bit 129 is no request, and none is read from it (log 20). -/
def decodeTableWord (nbits w : Nat) : Option Instr :=
  if w % 2 ^ nbits < 2 ^ 130 then (decode (Req.ofTableWord nbits w)).toOption else none

end Sys2Proof
end

