-- ==== Sys2Proof/Machine/State.lean ====
section
/-! DEFINITION. The state a model of the block and its buffer carries: 10_state.md, 92_eei_decisions.md D22, 70_reset_and_hazards.md rule R103. -/

namespace Sys2Proof.Machine

/-- An InvocationCoordinate (R20, R48): the identifier of an invocation's agent (R95). -/
structure Coord where
  x : Word
  y : Word
  z : Word
  deriving DecidableEq, Repr

/-- The words of a buffer that have a known value: (word index, word). The canonical form is
`Memory.wf` (Machine/Ops.lean). The cell is a 32-bit word and not a byte, because the port moves
whole words and the order of a word's bytes is OPEN (R26, R27; log 1). -/
abbrev Memory := List (Nat × Word)

/-- The PixelBuffer (R19): `BUF_LEN` words, row-major. -/
structure PixelBuffer where
  /-- `BUF_LEN`. -/
  len : Nat
  /-- The words with a known value; every other word below `len` holds a free value (log 4). -/
  words : Memory
  /-- The model's number of this buffer, which only selects its free values (log 4). -/
  id : Nat
  deriving DecidableEq, Repr

/-- The reasons of a fault. Closed: R86 gives the model this only fault. -/
inductive Fault where
  /-- `BufferTooSmall`, raised by INVOKE when the coordinates are in bounds and the index is not
  below `BUF_LEN` (R86). It is recorded in `State.faults` and the machine goes on (R87), so no step
  ends with it (log 6). Safe: the faulting invocation writes nothing, and no statement about the
  buffer holds of a dispatch that recorded one. -/
  | bufferTooSmall
  deriving DecidableEq, Repr

/-- The fault's code (R86). -/
def Fault.code : Fault → Nat
  | .bufferTooSmall => 1

/-- One recorded fault (R86): the reason, the invocation's coordinates and the out-of-range index. -/
structure FaultRecord where
  reason : Fault
  coord : Coord
  info : Word
  deriving DecidableEq, Repr

/-- The reasons of a refusal. A refusal ends the run, which is the lasting mark of R88 (log 7). -/
inductive Refusal where
  /-- An instruction without a meaning. Raised by an arm of `exec`; safe. -/
  | notModelled (mnemonic : String)
  /-- Code 1 (R88): the parameters break R6. Raised by every operation and by a launch (log 9). Safe. -/
  | parameterIllegal
  /-- Code 2 (R88): a launch, or an INVOKE about to write, with no buffer bound (log 8). Safe. -/
  | noBufferBound
  /-- Code 3 (R88): `SCALE c, d` with `c ≥ d`. Raised by SCALE. Safe. -/
  | scaleOutOfDomain
  /-- Code 4 (R88): `PACK` with a nonzero bit in an operand's bits 31 to 8. Raised at decode and by
  PACK (log 19). Safe. -/
  | packOperandWidth
  /-- The model's own: the host reads a word that does not exist, past `BUF_LEN` or with no buffer
  bound (log 15). Raised by a host read. Safe. -/
  | readOutsideBuffer
  deriving DecidableEq, Repr

/-- The codes of R88; the two refusals that are the model's own have none. -/
def Refusal.code : Refusal → Option Nat
  | .notModelled _ => none
  | .parameterIllegal => some 1
  | .noBufferBound => some 2
  | .scaleOutOfDomain => some 3
  | .packOperandWidth => some 4
  | .readOutsideBuffer => none

/-- The output ports (92 D22), as the last answered request left them. A port that holds no defined
value is `none` (R57, log 5). -/
structure Outputs where
  resInBounds : Option Bool
  resIdx : Option Word
  resQ : Option Channel
  resWord : Option Word
  memWe : Bool
  memIdx : Option Word
  memWdata : Option Word
  deriving DecidableEq, Repr

/-- No port holds a defined value and nothing is written. -/
def Outputs.idle : Outputs :=
  { resInBounds := none, resIdx := none, resQ := none, resWord := none,
    memWe := false, memIdx := none, memWdata := none }

/-- A launch (R80): the grid extent and the bound buffer as it was at launch, `buf0` (R19). -/
structure Launch where
  gx : Nat
  gy : Nat
  gz : Nat
  buf0 : PixelBuffer
  deriving DecidableEq, Repr

/-- What the host can do (R103, R55, R44). -/
inductive HostMove where
  /-- Present one request to the block (R44). -/
  | request (q : Req)
  /-- Bind a buffer of `len` words; `init` are the words whose value the host states (R102, R103). -/
  | bind (len : Nat) (init : Memory)
  /-- Take the buffer back (R19: the host owns it before and after a dispatch). -/
  | release
  /-- `DISPATCH gx, gy, gz` (R55, R80). -/
  | dispatch (gx gy gz : Nat)
  /-- `DISPATCH_TILES tx, ty` (R55). -/
  | dispatchTiles (tx ty : Nat)
  /-- The dispatcher runs pending invocation number `k`, modulo how many are pending (R36). -/
  | pick (k : Nat)
  /-- Do nothing until the dispatch is complete (R37, R105). -/
  | await
  /-- `MemRead(j, 4)` (R9, R37, R38). -/
  | read (j : Nat)
  /-- Assert reset (R99, R101). -/
  | reset
  deriving DecidableEq, Repr

/-- Everything that outlives an operation. The block itself keeps no state (R12 to R18). -/
structure State where
  /-- The elaboration-time parameters (R5, R6); no step changes them (log 2). -/
  params : Params
  /-- The bound buffer, `none` where none is bound (R19, R102). -/
  buf : Option PixelBuffer
  /-- The multiset of coordinate triples whose invocation has not taken its step (R21). The order of
  the list means nothing: any element may be picked (R36). -/
  pending : List Coord
  /-- The set of recorded faults (R21), in the canonical order of `FaultRecord.key` (log 17). -/
  faults : List FaultRecord
  /-- The dispatch in flight, kept after its completion until the host's next move that ends its
  result: request, bind, release, launch or reset (log 21). -/
  launch : Option Launch
  /-- The output ports (92 D22). No operation reads them. -/
  out : Outputs
  /-- What the host's last read got back (R37, R38). -/
  readData : Option Word
  /-- The host's moves still to come, oldest first (log 10). -/
  inputs : List HostMove
  /-- The model's own counter of the free values drawn so far (log 24). -/
  draws : Nat
  deriving DecidableEq, Repr

/-- What one step, or one operation, answers. -/
abbrev Answer := Host.Outcome State Fault Refusal

/-- The machine right after reset (R22, R99): nothing in flight, no fault recorded, ready for the
first invocation. Reset leaves the buffer as the host bound it: here the binding contract's buffer of
`W × H` words with nothing written (log 3, log 4). -/
def State.reset : State :=
  { params := Params.thisHardware
    buf := some { len := 65536, words := [], id := 0 }
    pending := []
    faults := []
    launch := none
    out := Outputs.idle
    readData := none
    inputs := []
    draws := 1 }

end Sys2Proof.Machine
end

