-- ==== Sys2Proof/Machine/Flags.lean ====
section
/-! DEFINITION. The block has no flag (10_state.md rule R15); its only predicate is the bounds guard, and the parameter check of 00_scope.md rule R6 stands beside it. -/

namespace Sys2Proof.Machine

/-- The bounds guard (R15, R57), on the full 32-bit values (R58). It is never stored. -/
def inBounds (p : Params) (x y : Word) : Bool :=
  decide (x.toNat < p.width) && decide (y.toNat < p.height)

/-- The parameters are legal (R6). -/
def legal (p : Params) : Bool :=
  decide (1 ≤ p.width) && decide (1 ≤ p.height) &&
    decide (p.width * p.height ≤ Config.indexLimit) &&
    decide (p.width ≤ Config.coordLimit) && decide (p.height ≤ Config.coordLimit) &&
    decide (p.bValue ≤ 255) && decide (p.aValue ≤ 255)

end Sys2Proof.Machine
end

