-- ==== Sys2Proof/Machine/Operands.lean ====
section
/-! DEFINITION. Operand forms and addressing: 30_encoding.md rules R47, R50; 20_memory.md rules R24, R28, R29; 43_gradient_kernel.md rule R77; 60_exceptions.md rule R96. -/

namespace Sys2Proof.Machine

/-- The channel in a `PACK` operand, bits 7 to 0 (R47). -/
def channelOf (v : Word) : Channel := v.extractLsb' 0 8

/-- The block's one addressing mode: the row-major word index `y × W + x` (R24, R57, R77), on the
32-bit index port (R26). R6 makes it fit for in-bounds coordinates. -/
def linearIndex (p : Params) (x y : Word) : Word :=
  BitVec.ofNat 32 (y.toNat * p.width + x.toNat)

/-- The pixel that word `j` of the image holds: `(j mod W, j div W)` (R24, R59). -/
def pixelOf (p : Params) (j : Nat) : Nat × Nat := (j % p.width, j / p.width)

/-- R60's realisation of the guard for `W = H = 256`: bits 31 to 8 of both coordinates are zero. -/
def inBounds256 (x y : Word) : Bool := x.extractLsb' 8 24 == 0 && y.extractLsb' 8 24 == 0

/-- R60's realisation of the index for `W = H = 256`: 16 zero bits, `y[7:0]`, `x[7:0]`. -/
def linearIndex256 (x y : Word) : Word :=
  (0 : BitVec 16) ++ y.extractLsb' 0 8 ++ x.extractLsb' 0 8

/-- The tile of a pixel (R96). No rule of the block reads it. -/
def tileOf (x y : Nat) : Nat × Nat := (x / Config.tileSide, y / Config.tileSide)

/-- The conventional grid (R83): each used dimension rounded up to a multiple of the tile side. -/
def conventionalGrid (p : Params) : Nat × Nat × Nat :=
  (Config.tileSide * ((p.width + (Config.tileSide - 1)) / Config.tileSide),
   Config.tileSide * ((p.height + (Config.tileSide - 1)) / Config.tileSide), 1)

/-- The two values of the OPEN parameter `BYTE_ORDER` (R27). The model chooses neither. -/
inductive ByteOrder where
  | littleEndian
  | bigEndian
  deriving DecidableEq, Repr

/-- The condition on the OPEN launch argument `BUF_BASE` (R5, R28): a multiple of 4. -/
def legalBase (base : Nat) : Bool := decide (base % 4 = 0)

/-- The byte address of word `i` in a byte view whose word 0 lies at `base` (R28). -/
def wordAddress (base i : Nat) : Nat := base + 4 * i

/-- Byte `k` (0 to 3, in increasing address order) of a word in a byte view (R28). -/
def byteOfWord (order : ByteOrder) (w : Word) (k : Nat) : BitVec 8 :=
  match order with
  | .littleEndian => w.extractLsb' (8 * k) 8
  | .bigEndian => w.extractLsb' (8 * (3 - k)) 8

end Sys2Proof.Machine
end

