-- ==== Sys2Proof/Machine/Ops.lean ====
section
/-! DEFINITION. The named operations over the buffer, the output ports and the fault set: 00_scope.md rule R9, 20_memory.md, 60_exceptions.md rules R86 to R88. There is no return from a fault (R90). -/

namespace Sys2Proof.Machine

/-- The canonical form of a buffer's words: indices strictly rising, all below `len`. An unlisted
word has no known value, so no entry repeats one (log 4). -/
abbrev Memory.wf (m : Memory) (len : Nat) : Prop :=
  m.Pairwise (fun a b => a.1 < b.1) ∧ ∀ c ∈ m, c.1 < len

/-- The known value of word `j`, if it has one. -/
def Memory.lookup (j : Nat) : Memory → Option Word
  | [] => none
  | (i, v) :: rest => if i = j then some v else Memory.lookup j rest

/-- The words after word `j` is set to `v`; keeps the canonical form. -/
def Memory.insert (j : Nat) (v : Word) : Memory → Memory
  | [] => [(j, v)]
  | (i, u) :: rest =>
    if j < i then (j, v) :: (i, u) :: rest
    else if i = j then (j, v) :: rest
    else (i, u) :: Memory.insert j v rest

/-- What word `j` holds: its known value, else its free value (R22, log 4). -/
def PixelBuffer.word (b : PixelBuffer) (j : Nat) : Word :=
  (b.words.lookup j).getD (Config.unwritten b.id j)

/-- `MemWrite(i, 4, v)` on the buffer (R9, R30, R31): one whole word. A word past `BUF_LEN` does not
exist, and nothing is written there. -/
def PixelBuffer.write (b : PixelBuffer) (j : Nat) (v : Word) : PixelBuffer :=
  if j < b.len then { b with words := b.words.insert j v } else b

/-- A byte of the buffer in a byte view (R28), for a given `BYTE_ORDER` and `BUF_BASE`; `none` where
the address is no byte of the buffer, and at every address where `BUF_BASE` is no multiple of 4, for
which there is no byte view (R5, R29, log 1). -/
def PixelBuffer.byteAt (b : PixelBuffer) (order : ByteOrder) (base addr : Nat) : Option (BitVec 8) :=
  if legalBase base ∧ base ≤ addr ∧ addr < wordAddress base b.len then
    some (byteOfWord order (b.word ((addr - base) / 4)) ((addr - base) % 4))
  else none

/-- The place of a fault record in the canonical order of the fault set: different records have
different keys. -/
def FaultRecord.key (r : FaultRecord) : Nat :=
  (((r.reason.code * 2 ^ 32 + r.coord.z.toNat) * 2 ^ 32 + r.coord.y.toNat) * 2 ^ 32 +
    r.coord.x.toNat) * 2 ^ 32 + r.info.toNat

/-- Adds a record to the fault set (R21, R87): `faults` is a set, so a record is held once. -/
def insertFault (r : FaultRecord) : List FaultRecord → List FaultRecord
  | [] => [r]
  | f :: rest =>
    if r.key < f.key then r :: f :: rest
    else if r.key = f.key then f :: rest
    else f :: insertFault r rest

/-- Drives the output ports and ends the operation (R44, 92 D22). -/
def State.answer (s : State) (o : Outputs) : State := { s with out := o }

/-- The single write of an invocation (R74): word `i` of the bound buffer `b` becomes `v`, and the
memory port shows the write (92 D22). -/
def State.memWrite (s : State) (b : PixelBuffer) (i v : Word) : State :=
  { s with
    buf := some (b.write i.toNat v)
    out := { Outputs.idle with memWe := true, memIdx := some i, memWdata := some v } }

/-- Taking a fault, the whole of it (R87): the record is added to the fault set, the invocation ends
and nothing is written. No state is saved, no mode changes, no handler runs. -/
def State.raiseFault (s : State) (reason : Fault) (c : Coord) (info : Word) : State :=
  { s with
    faults := insertFault { reason := reason, coord := c, info := info } s.faults
    out := Outputs.idle }

/-- A configuration that breaks R6 is refused (R6, R88, log 9). DESIGN CHOICE (log 27): inside an
operation this comes before that operation's own refusal; only a launch has its order in R89. -/
def whenLegal (s : State) (k : Answer) : Answer :=
  if legal s.params then k else .refused .parameterIllegal

end Sys2Proof.Machine
end

