-- ==== Sys2Proof/Machine/LinearScaler.lean ====
section
/-! DEFINITION. SCALE: 41_linear_scaler.md rules R61 to R65. -/

namespace Sys2Proof.Machine

/-- The channel value `floor(c × 255 / d)` (R61): the exact product first, then the truncating
division (R62). For `c < d` it is at most 254 and fits the channel (R63). -/
def scaleValue (c d : Nat) : Channel := BitVec.ofNat 8 (c * Config.scaleMax / d)

/-- `SCALE c, d` (R61). -/
def execScale (c d : Word) (s : State) : Answer :=
  whenLegal s <|
    if c.toNat < d.toNat then
      .next (s.answer { Outputs.idle with resQ := some (scaleValue c.toNat d.toNat) })
    else .refused .scaleOutOfDomain

end Sys2Proof.Machine
end

