-- ==== Sys2Proof/Machine/PixelIndexMapper.lean ====
section
/-! DEFINITION. MAP_INDEX: 40_pixel_index_mapper.md rules R57, R58. -/

namespace Sys2Proof.Machine

/-- `MAP_INDEX x, y` (R57): the guard and, in bounds, the index. Out of bounds no index is produced. -/
def execMapIndex (x y : Word) (s : State) : Answer :=
  whenLegal s <|
    if inBounds s.params x y then
      .next (s.answer { Outputs.idle with
        resInBounds := some true, resIdx := some (linearIndex s.params x y) })
    else .next (s.answer { Outputs.idle with resInBounds := some false })

end Sys2Proof.Machine
end

