-- ==== Sys2Proof/Machine/Rgba8Packer.lean ====
section
/-! DEFINITION. PACK: 42_rgba8_packer.md rules R67 to R70. -/

namespace Sys2Proof.Machine

/-- The packed word `(a << 24) | (b << 16) | (g << 8) | r` (R67). -/
def packWord (r g b a : Channel) : Word :=
  (a.setWidth 32 <<< 24) ||| (b.setWidth 32 <<< 16) ||| (g.setWidth 32 <<< 8) ||| r.setWidth 32

/-- Lane `k` of a packed word, bits `8k + 7` to `8k` (R68). -/
def lane (w : Word) (k : Nat) : Channel := w.extractLsb' (8 * k) 8

/-- `PACK r, g, b, a` (R67). -/
def execPack (r g b a : Word) (s : State) : Answer :=
  whenLegal s <|
    if isChannel r && isChannel g && isChannel b && isChannel a then
      .next (s.answer { Outputs.idle with
        resWord := some (packWord (channelOf r) (channelOf g) (channelOf b) (channelOf a)) })
    else .refused .packOperandWidth

end Sys2Proof.Machine
end

