-- ==== Sys2Proof/Machine/GradientKernel.lean ====
section
/-! DEFINITION. INVOKE: 43_gradient_kernel.md rules R71 to R79. -/

namespace Sys2Proof.Machine

/-- `pixel_word(x, y)` (R79), from the channels of R73. -/
def pixelWord (p : Params) (x y : Nat) : Word :=
  packWord (scaleValue x p.width) (scaleValue y p.height)
    (BitVec.ofNat 8 p.bValue) (BitVec.ofNat 8 p.aValue)

/-- `INVOKE x, y, z` (R71), in R72's order: guard, index, channels, packing, fault check, write. With
no buffer bound there is nothing to check or write, and the invocation is refused (log 8). -/
def execInvoke (x y z : Word) (s : State) : Answer :=
  whenLegal s <|
    if inBounds s.params x y then
      let i := linearIndex s.params x y
      let word := pixelWord s.params x.toNat y.toNat
      match s.buf with
      | none => .refused .noBufferBound
      | some b =>
        if i.toNat < b.len then .next (s.memWrite b i word)
        else .next (s.raiseFault .bufferTooSmall { x := x, y := y, z := z } i)
    else .next (s.answer Outputs.idle)

end Sys2Proof.Machine
end

