-- ==== Sys2Proof/Machine/Dispatch.lean ====
section
/-! DEFINITION. One arm per operation of spec/opcode_table.json. -/

namespace Sys2Proof.Machine

def exec (i : Instr) (s : State) : Host.Outcome State Fault Refusal :=
  match i with
  -- 43_gradient_kernel.md rule R71
  | .invoke x y z _ => Sys2Proof.Machine.execInvoke x y z s
  -- 40_pixel_index_mapper.md rule R57
  | .mapIndex x y _ _ => Sys2Proof.Machine.execMapIndex x y s
  -- 41_linear_scaler.md rule R61
  | .scale c d _ _ => Sys2Proof.Machine.execScale c d s
  -- 42_rgba8_packer.md rule R67
  | .pack r g b a => Sys2Proof.Machine.execPack r g b a s

end Sys2Proof.Machine
end

