-- ==== Sys2Proof/Machine/Launch.lean ====
section
/-! DEFINITION. The dispatch (43_gradient_kernel.md rules R80 to R83), the host's moves (70_reset_and_hazards.md rules R99 to R103) and the requests it presents (30_encoding.md rule R44). -/

namespace Sys2Proof.Machine

/-- The coordinate triple of three numbers below `2 ^ 32`. -/
def Coord.ofNat (x y z : Nat) : Coord :=
  { x := BitVec.ofNat 32 x, y := BitVec.ofNat 32 y, z := BitVec.ofNat 32 z }

/-- The coordinate triples of a grid (R55, R80): one for each `x < gx`, `y < gy`, `z < gz` that a
32-bit component can hold (92 D2, log 16). -/
def gridCoords (gx gy gz : Nat) : List Coord :=
  (List.range (min gz Config.coordLimit)).flatMap fun z =>
    (List.range (min gy Config.coordLimit)).flatMap fun y =>
      (List.range (min gx Config.coordLimit)).map fun x => Coord.ofNat x y z

/-- The INVOKE request of a coordinate triple (R55): ignored field `opd` zero. -/
def Coord.instr (c : Coord) : Instr := .invoke c.x c.y c.z 0

/-- The launch `DISPATCH gx, gy, gz` (R80), its premises checked in the order of R89 and R102. -/
def launchGrid (gx gy gz : Nat) (s : State) : Answer :=
  whenLegal s <|
    match s.buf with
    | none => .refused .noBufferBound
    | some b =>
      .next { s with
        pending := gridCoords gx gy gz
        faults := []
        launch := some { gx := gx, gy := gy, gz := gz, buf0 := b } }

/-- Pending invocation number `k`, modulo how many are pending, takes its one step (R80); nothing
happens where none is pending. -/
def runPending (k : Nat) (s : State) : Answer :=
  match s.pending[k % s.pending.length]? with
  | none => .next s
  | some c => exec c.instr { s with pending := s.pending.eraseIdx (k % s.pending.length) }

/-- The dispatch goes on by itself: a free choice says which invocation steps (R36, log 12). With no
invocation in flight the block waits for the host, unchanged (R10, R108). -/
def advance (s : State) : Answer :=
  match s.pending with
  | [] => .next s
  | _ :: _ => runPending (Config.pick s.draws) { s with draws := s.draws + 1 }

/-- One request, decoded and executed (R44, R56); an invalid one is refused at decode (R89).
DESIGN CHOICE (log 27): so it is with illegal parameters too, a pair R89 gives no priority for. -/
def serveRequest (q : Req) (s : State) : Answer :=
  match decode q with
  | .ok i => exec i { s with launch := none }
  | .error .packOperandWidth => .refused .packOperandWidth

/-- The buffer the host binds: `len` words, those of `init` below `len` with the value the host
states, every other word with a free value (R19, 92 D8, log 4, log 26). -/
def bindBuffer (len : Nat) (init : Memory) (s : State) : State :=
  { s with
    buf := some (init.foldl (fun b c => b.write c.1 c.2) { len := len, words := [], id := s.draws })
    launch := none
    draws := s.draws + 1 }

/-- The host takes its buffer back (R19). -/
def releaseBuffer (s : State) : State := { s with buf := none, launch := none }

/-- The buffer after a reset that ends a dispatch (R101): each word whose pixel is in the grid holds
its old value or its `pixel_word`, by a free choice for each word; every other word its old value. -/
def abortedBuffer (p : Params) (l : Launch) (draw : Nat) : PixelBuffer :=
  (gridCoords l.gx l.gy l.gz).foldl
    (fun b c =>
      let j := (linearIndex p c.x c.y).toNat
      if inBounds p c.x c.y && !(Config.resetKeepsOld draw j) then
        b.write j (pixelWord p c.x.toNat c.y.toNat)
      else b)
    l.buf0

/-- Reset (R99): nothing in flight, no fault recorded, the ports idle; the buffer is unchanged
between dispatches, and as R101 says where a dispatch was in flight. -/
def applyReset (s : State) : State :=
  let s' := { s with pending := [], faults := [], launch := none, out := Outputs.idle }
  match s.pending, s.launch with
  | _ :: _, some l => { s' with buf := some (abortedBuffer s.params l s.draws), draws := s.draws + 1 }
  | _, _ => s'

/-- The host's `MemRead(j, 4)`: after completion the word (R37); while a dispatch is in flight the
word as it stands or as it was at launch, by a free choice (R38, log 13). -/
def hostRead (j : Nat) (s : State) : Answer :=
  match s.buf with
  | none => .refused .readOutsideBuffer
  | some b =>
    if j < b.len then
      match s.pending, s.launch with
      | _ :: _, some l =>
        .next { s with
          readData := some (if Config.readSeesWrites s.draws then b.word j else l.buf0.word j)
          draws := s.draws + 1 }
      | _, _ => .next { s with readData := some (b.word j) }
    else .refused .readOutsideBuffer

/-- The moves a host does not make while a dispatch is in flight (R103): they wait for its
completion (log 11). A read, a reset and a dispatcher's choice do not wait. -/
def HostMove.waits : HostMove → Bool
  | .request _ => true
  | .bind _ _ => true
  | .release => true
  | .dispatch _ _ _ => true
  | .dispatchTiles _ _ => true
  | .await => true
  | .pick _ => false
  | .read _ => false
  | .reset => false

/-- The host's move takes place. -/
def serve (m : HostMove) (s : State) : Answer :=
  match m with
  | .request q => serveRequest q s
  | .bind len init => .next (bindBuffer len init s)
  | .release => .next (releaseBuffer s)
  | .dispatch gx gy gz => launchGrid gx gy gz s
  | .dispatchTiles tx ty => launchGrid (Config.tileSide * tx) (Config.tileSide * ty) 1 s
  | .pick k => runPending k s
  | .await => .next s
  | .read j => hostRead j s
  | .reset => .next (applyReset s)

/-- One event: the host's next move where it may take place now, else one step of the dispatch. -/
def nextEvent (s : State) : Answer :=
  match s.inputs with
  | [] => advance s
  | m :: rest =>
    if m.waits && !s.pending.isEmpty then advance s else serve m { s with inputs := rest }

end Sys2Proof.Machine
end

