-- ==== Sys2Proof/Machine/Step.lean ====
section
/-! DEFINITION. One step of the machine, and where a request is placed so that the next step runs it. -/

namespace Sys2Proof.Machine

/-- One step: one invocation's atomic step or one host move (R10, R44, R80, R103). -/
def step (s : State) : Host.Outcome State Fault Refusal := nextEvent s

/-- `s` with the request of a table word presented next. The block fetches nothing (R14); the host
presents requests, and no dispatch is in flight when it does (log 10, log 11). -/
def State.withFetchWord (s : State) (nbits w : Nat) : State :=
  { s with pending := [], inputs := .request (Req.ofTableWord nbits w) :: s.inputs }

end Sys2Proof.Machine
end

