-- ==== Sys2Proof/Machine/Assembler.lean ====
section
/-! DEFINITION. The assembler syntax of 30_encoding.md rule R54 and the pseudo-operations of rule R55, one line of text to the host move it stands for. The machine does not depend on it. -/

namespace Sys2Proof.Machine

/-- Blank space between the parts of a line (log 22). -/
def isBlank (c : Char) : Bool := c == ' ' || c == '\t'

/-- The line without what a `;` comment or a listing's `->` result adds to it (R54). -/
def cutLine : List Char → List Char
  | [] => []
  | ';' :: _ => []
  | '-' :: '>' :: _ => []
  | c :: rest => c :: cutLine rest

/-- The text without blanks at either end. -/
def trim (cs : List Char) : List Char :=
  ((cs.dropWhile isBlank).reverse.dropWhile isBlank).reverse

/-- The parts between commas. -/
def splitCommas : List Char → List (List Char)
  | [] => [[]]
  | ',' :: rest => [] :: splitCommas rest
  | c :: rest =>
    match splitCommas rest with
    | [] => [[c]]
    | p :: ps => (c :: p) :: ps

/-- The value of a digit in the given base, 10 or 16. -/
def digitValue (base : Nat) (c : Char) : Option Nat :=
  let n := c.toNat
  let v :=
    if 48 ≤ n ∧ n ≤ 57 then some (n - 48)
    else if 65 ≤ n ∧ n ≤ 70 then some (n - 55)
    else if 97 ≤ n ∧ n ≤ 102 then some (n - 87)
    else none
  v.filter (· < base)

/-- The value of a run of digits after the digits whose value is `acc`. -/
def digitsValue (base acc : Nat) : List Char → Option Nat
  | [] => some acc
  | c :: rest =>
    match digitValue base c with
    | none => none
    | some v => digitsValue base (acc * base + v) rest

/-- An unsigned integer literal, decimal or hex (R54). -/
def literal : List Char → Option Nat
  | '0' :: 'x' :: d :: ds => digitsValue 16 0 (d :: ds)
  | d :: ds => digitsValue 10 0 (d :: ds)
  | [] => none

/-- The literals of a list of parts, if every part is one. -/
def literals : List (List Char) → Option (List Nat)
  | [] => some []
  | p :: ps =>
    match literal (trim p), literals ps with
    | some v, some vs => some (v :: vs)
    | _, _ => none

/-- A literal that a 32-bit operand field can hold (R47). -/
def operand (n : Nat) : Option Word :=
  if n < 2 ^ 32 then some (BitVec.ofNat 32 n) else none

/-- A request with these operands; the ignored fields are zero, and an omitted `z` means 0 (R54). -/
def requestLine (build : Word → Word → Word → Word → Instr) (a b c d : Nat) : Option HostMove :=
  match operand a, operand b, operand c, operand d with
  | some a, some b, some c, some d => some (.request (encode (build a b c d)))
  | _, _, _, _ => none

/-- One line: an operation of R54 or a pseudo-operation of R55, else none. -/
def assemble (line : List Char) : Option HostMove :=
  let text := trim (cutLine line)
  let name := text.takeWhile (fun c => !isBlank c)
  match literals (splitCommas (text.drop name.length)) with
  | none => none
  | some ops =>
    if name = ['I', 'N', 'V', 'O', 'K', 'E'] then
      match ops with
      | [x, y] => requestLine .invoke x y 0 0
      | [x, y, z] => requestLine .invoke x y z 0
      | _ => none
    else if name = ['M', 'A', 'P', '_', 'I', 'N', 'D', 'E', 'X'] then
      match ops with
      | [x, y] => requestLine .mapIndex x y 0 0
      | _ => none
    else if name = ['S', 'C', 'A', 'L', 'E'] then
      match ops with
      | [c, d] => requestLine .scale c d 0 0
      | _ => none
    else if name = ['P', 'A', 'C', 'K'] then
      match ops with
      | [r, g, b, a] => requestLine .pack r g b a
      | _ => none
    else if name = ['D', 'I', 'S', 'P', 'A', 'T', 'C', 'H'] then
      match ops with
      | [gx, gy] => some (.dispatch gx gy 1)
      | [gx, gy, gz] => some (.dispatch gx gy gz)
      | _ => none
    else if name = ['D', 'I', 'S', 'P', 'A', 'T', 'C', 'H', '_', 'T', 'I', 'L', 'E', 'S'] then
      match ops with
      | [tx, ty] => some (.dispatchTiles tx ty)
      | _ => none
    else none

end Sys2Proof.Machine
end

