-- ==== Sys2Proof/Safety.lean ====
section
/-! DEFINITION. What a complete and clean dispatch is (43_gradient_kernel.md rules R80, R81), and the invariant every step keeps. -/

namespace Sys2Proof.Machine

/-- The dispatch is complete (R21, R80). -/
def State.Complete (s : State) : Prop := s.pending = []

/-- The dispatch is complete and clean (R80). -/
def State.Clean (s : State) : Prop := s.Complete ∧ s.faults = []

/-- Word `j` of the image belongs to a pixel whose invocation is in the grid (R81). -/
def Launch.Covers (p : Params) (l : Launch) (j : Nat) : Prop :=
  j < p.width * p.height ∧ j % p.width < l.gx ∧ j / p.width < l.gy ∧ 1 ≤ l.gz

/-- The pixel word of the pixel that word `j` of the image holds (R24, R79). -/
def pixelWordAt (p : Params) (j : Nat) : Word := pixelWord p (j % p.width) (j / p.width)

/-- Word `j` after a clean, complete dispatch (R81): its pixel word where the grid covers it, else
what the buffer held at launch. -/
def Launch.HasResult (p : Params) (l : Launch) (b : PixelBuffer) (j : Nat) : Prop :=
  (l.Covers p j → b.word j = pixelWordAt p j) ∧
    (¬ l.Covers p j → b.word j = l.buf0.word j)

/-- Some invocation of word `j`'s pixel has not taken its step. -/
def State.Awaits (s : State) (j : Nat) : Prop :=
  ∃ c ∈ s.pending, c.x.toNat = j % s.params.width ∧ c.y.toNat = j / s.params.width

/-- Word `j` while a dispatch is in flight (R25, R31, R35): final, unless an invocation of its pixel
is still to come; then it is the old word or the final one. -/
def State.WordInFlight (s : State) (l : Launch) (b : PixelBuffer) (j : Nat) : Prop :=
  l.HasResult s.params b j ∨ (l.Covers s.params j ∧ s.Awaits j ∧ b.word j = l.buf0.word j)

/-- A recorded fault is of an in-bounds invocation and names its index (R86). -/
def FaultRecord.Sound (p : Params) (r : FaultRecord) : Prop :=
  inBounds p r.coord.x r.coord.y = true ∧
    r.info.toNat = r.coord.y.toNat * p.width + r.coord.x.toNat

/-- The fault set is in its canonical form: keys strictly rising, so no record stands twice. -/
abbrev faultsWf (fs : List FaultRecord) : Prop := fs.Pairwise (fun a b => a.key < b.key)

/-- What holds of the dispatch whose record is `l` and whose buffer is now `b`. -/
structure State.InDispatch (s : State) (l : Launch) (b : PixelBuffer) : Prop where
  /-- The buffer at launch was in canonical form. -/
  old_wf : l.buf0.words.wf l.buf0.len
  /-- The block never resizes or replaces the buffer (R19). -/
  same_len : b.len = l.buf0.len
  same_id : b.id = l.buf0.id
  /-- No invocation is pending twice, and each is one of the grid (R21). -/
  nodup : s.pending.Nodup
  in_grid : ∀ c ∈ s.pending, c.x.toNat < l.gx ∧ c.y.toNat < l.gy ∧ c.z.toNat < l.gz
  /-- Every recorded fault is of an index past the buffer (R86). -/
  fault_past : ∀ r ∈ s.faults, b.len ≤ r.info.toNat
  /-- With no fault recorded, every word of the buffer is as R35 says. -/
  words : s.faults = [] → ∀ j, j < b.len → s.WordInFlight l b j

/-- The invariant: legal parameters, canonical memory and fault set, sound faults, no invocation in
flight without a launch, and the state of the dispatch. -/
structure State.Inv (s : State) : Prop where
  legal : legal s.params = true
  buf_wf : ∀ b, s.buf = some b → b.words.wf b.len
  faults_wf : faultsWf s.faults
  faults_sound : ∀ r ∈ s.faults, r.Sound s.params
  no_launch : s.launch = none → s.pending = []
  dispatch : ∀ l, s.launch = some l → ∃ b, s.buf = some b ∧ s.InDispatch l b

end Sys2Proof.Machine
end

