-- ==== Sys2Proof/Certificates/Slice0/Obligations.lean ====
section
/-! DEFINITION. The statements for the provers, from the numbered rules of spec/. -/

open Sys2Proof Sys2Proof.Machine

-- ---------------------------------------------------------------- encoding (30_encoding.md)

/-- 95_test_vectors.md section 2, requests written out as numbers: each decodes to the operation and
operands its row names, and `PACK 256, 0, 0, 0` to the verdict invalid. -/
def Obligations.SpecRequestWordsDecode : Prop :=
  decode 0x1C0000032000000190 = .ok (.invoke 100 200 7 0) ∧
  decode 0x3FC000003FD = .ok (.mapIndex 255 255 0 0) ∧
  decode 0x1C0000001400000015 = .ok (.mapIndex 5 5 7 0) ∧
  decode 0x3FFFFFFFFFFFFFFFA = .ok (.scale 0xFFFFFFFE 0xFFFFFFFF 0 0) ∧
  decode 0x1E000000158000000D00000004B = .ok (.pack 0x12 0x34 0x56 0x78) ∧
  decode 0x403 = .error .packOperandWidth

/-- R45: the request as a number, and its five fields. -/
def Obligations.RequestFormat : Prop :=
  ∀ (op : BitVec 2) (opa opb opc opd : Word),
    (Req.ofFields op opa opb opc opd).toNat =
      op.toNat ||| (opa.toNat <<< 2) ||| (opb.toNat <<< 34) ||| (opc.toNat <<< 66) |||
        (opd.toNat <<< 98) ∧
    (Req.ofFields op opa opb opc opd).extractLsb' 0 2 = op ∧
    (Req.ofFields op opa opb opc opd).extractLsb' 2 32 = opa ∧
    (Req.ofFields op opa opb opc opd).extractLsb' 34 32 = opb ∧
    (Req.ofFields op opa opb opc opd).extractLsb' 66 32 = opc ∧
    (Req.ofFields op opa opb opc opd).extractLsb' 98 32 = opd

/-- R56: every request decodes to exactly one operation, chosen by `REQ[1:0]` alone, except that a
PACK with a nonzero bit in an operand's upper 24 bits is invalid. -/
def Obligations.DecoderIsTotal : Prop :=
  ∀ q : Req,
    (q.extractLsb' 0 2 = 0 → decode q = .ok (.invoke (q.extractLsb' 2 32) (q.extractLsb' 34 32)
      (q.extractLsb' 66 32) (q.extractLsb' 98 32))) ∧
    (q.extractLsb' 0 2 = 1 → decode q = .ok (.mapIndex (q.extractLsb' 2 32) (q.extractLsb' 34 32)
      (q.extractLsb' 66 32) (q.extractLsb' 98 32))) ∧
    (q.extractLsb' 0 2 = 2 → decode q = .ok (.scale (q.extractLsb' 2 32) (q.extractLsb' 34 32)
      (q.extractLsb' 66 32) (q.extractLsb' 98 32))) ∧
    (q.extractLsb' 0 2 = 3 →
      ((q.extractLsb' 10 24 = 0 ∧ q.extractLsb' 42 24 = 0 ∧ q.extractLsb' 74 24 = 0 ∧
          q.extractLsb' 106 24 = 0) →
        decode q = .ok (.pack (q.extractLsb' 2 32) (q.extractLsb' 34 32) (q.extractLsb' 66 32)
          (q.extractLsb' 98 32))) ∧
      (¬ (q.extractLsb' 10 24 = 0 ∧ q.extractLsb' 42 24 = 0 ∧ q.extractLsb' 74 24 = 0 ∧
          q.extractLsb' 106 24 = 0) →
        decode q = .error .packOperandWidth))

/-- Decoding the encoding of any well-formed instruction gives it back, with every operand and every
ignored field at every value. -/
def Obligations.DecodeEncodeRoundTrip : Prop :=
  ∀ i : Instr, i.wellFormed = true → decode (encode i) = .ok i

/-- What decodes is well-formed and encodes to the request it came from: no bit is lost. -/
def Obligations.EncodeDecodeRoundTrip : Prop :=
  ∀ (q : Req) (i : Instr), decode q = .ok i → i.wellFormed = true ∧ encode i = q

-- ---------------------------------------------------------------- steps

/-- With no dispatch in flight, the step that meets a request runs the decoded instruction; around
`exec` it removes the request from the host's moves and drops the record of a completed dispatch
(the model's choices, log 10 and log 21). -/
def Obligations.StepRunsDecodedRequest : Prop :=
  ∀ (s : State) (q : Req) (rest : List HostMove) (i : Instr),
    s.pending = [] → s.inputs = .request q :: rest → decode q = .ok i →
    step s = exec i { s with inputs := rest, launch := none }

/-- R89: an over-wide PACK operand is found at decode, and the step that meets the request is
refused. (With illegal parameters too: which refusal is named for that pair is the model's choice,
log 27.) -/
def Obligations.StepRefusesInvalidRequest : Prop :=
  ∀ (s : State) (q : Req) (rest : List HostMove),
    s.pending = [] → s.inputs = .request q :: rest → decode q = .error .packOperandWidth →
    step s = .refused .packOperandWidth

/-- The step after `withFetchWord` runs what `decodeTableWord` reads from the same table word. -/
def Obligations.StepRunsTableWord : Prop :=
  ∀ (s : State) (nbits w : Nat) (i : Instr), decodeTableWord nbits w = some i →
    step (s.withFetchWord nbits w) = exec i { s with pending := [], launch := none }

/-- While a dispatch is in flight, the dispatcher's choice `k` runs the INVOKE of pending invocation
`k mod n` and removes it; where the host gives no choice, and while its next move waits for
completion, the choice is free (the model's `Config.pick`, log 12). -/
def Obligations.StepRunsPendingInvocation : Prop :=
  ∀ (s : State) (c : Coord),
    (∀ (k : Nat) (rest : List HostMove), s.inputs = .pick k :: rest →
      s.pending[k % s.pending.length]? = some c →
      step s = exec (.invoke c.x c.y c.z 0)
        { s with inputs := rest, pending := s.pending.eraseIdx (k % s.pending.length) }) ∧
    ((s.inputs = [] ∨ ∃ m rest, s.inputs = m :: rest ∧ m.waits = true) →
      s.pending[Config.pick s.draws % s.pending.length]? = some c →
      step s = exec (.invoke c.x c.y c.z 0)
        { s with draws := s.draws + 1,
                 pending := s.pending.eraseIdx (Config.pick s.draws % s.pending.length) })

/-- R10, R108: with nothing in flight and no host move to come, the block waits unchanged. -/
def Obligations.IdleStepChangesNothing : Prop :=
  ∀ s : State, s.pending = [] → s.inputs = [] → step s = .next s

/-- R5, R17: the parameters are fixed; no step changes them. -/
def Obligations.StepKeepsParameters : Prop :=
  ∀ s t : State, step s = .next t → t.params = s.params

/-- R10, R87: a fault is recorded and the machine goes on, so no step ends the run with one. -/
def Obligations.StepNeverEndsInFault : Prop :=
  ∀ (s : State) (f : Fault), step s ≠ .fault f

-- ---------------------------------------------------------------- MAP_INDEX (40)

/-- R57, R58: encoding, guard on the full 32-bit values, exact index; no index out of bounds. Nothing
but the output ports changes. -/
def Obligations.MapIndexResult : Prop :=
  ∀ (s : State) (x y c d : Word), legal s.params = true →
    decode (d ++ c ++ y ++ x ++ (1 : BitVec 2)) = .ok (.mapIndex x y c d) ∧
    (x.toNat < s.params.width ∧ y.toNat < s.params.height →
      ∃ t, exec (.mapIndex x y c d) s = .next t ∧ { t with out := s.out } = s ∧
        t.out.resInBounds = some true ∧ t.out.memWe = false ∧
        ∃ i : Word, t.out.resIdx = some i ∧ i.toNat = y.toNat * s.params.width + x.toNat) ∧
    (¬ (x.toNat < s.params.width ∧ y.toNat < s.params.height) →
      ∃ t, exec (.mapIndex x y c d) s = .next t ∧ { t with out := s.out } = s ∧
        t.out.resInBounds = some false ∧ t.out.memWe = false ∧ t.out.resIdx = none)

/-- R59: different in-bounds pairs get different indices, every index of the image is reached, and
`i ↦ (i mod W, i div W)` is the inverse. -/
def Obligations.IndexIsBijection : Prop :=
  ∀ s : State, legal s.params = true →
    (∀ (x y c d x' y' c' d' : Word) (t t' : State),
      x.toNat < s.params.width → y.toNat < s.params.height →
      x'.toNat < s.params.width → y'.toNat < s.params.height → (x, y) ≠ (x', y') →
      exec (.mapIndex x y c d) s = .next t → exec (.mapIndex x' y' c' d') s = .next t' →
      t.out.resIdx ≠ t'.out.resIdx) ∧
    (∀ (x y c d i : Word) (t : State), exec (.mapIndex x y c d) s = .next t →
      t.out.resIdx = some i →
      i.toNat < s.params.width * s.params.height ∧
        (x.toNat, y.toNat) = (i.toNat % s.params.width, i.toNat / s.params.width)) ∧
    (∀ j : Nat, j < s.params.width * s.params.height →
      ∃ (x y : Word) (t : State), exec (.mapIndex x y 0 0) s = .next t ∧
        t.out.resIdx = some (BitVec.ofNat 32 j) ∧
        (x.toNat, y.toNat) = (j % s.params.width, j / s.params.width))

/-- R60: for `W = H = 256` the guard is a test of the upper 24 bits and the index is a concatenation,
for every 32-bit pair. -/
def Obligations.IndexRealisation256 : Prop :=
  ∀ (s : State) (x y c d : Word), s.params = Params.thisHardware →
    ∃ t, exec (.mapIndex x y c d) s = .next t ∧
      t.out.resInBounds = some (x.extractLsb' 8 24 == 0 && y.extractLsb' 8 24 == 0) ∧
      (t.out.resInBounds = some true →
        t.out.resIdx = some ((0 : BitVec 16) ++ y.extractLsb' 0 8 ++ x.extractLsb' 0 8))

-- ---------------------------------------------------------------- SCALE (41)

/-- R61: encoding, domain, the exact truncating quotient; refused outside the domain. Nothing but the
output ports changes. -/
def Obligations.ScaleResult : Prop :=
  ∀ (s : State) (c d e f : Word), legal s.params = true →
    decode (f ++ e ++ d ++ c ++ (2 : BitVec 2)) = .ok (.scale c d e f) ∧
    (c.toNat < d.toNat →
      ∃ t, exec (.scale c d e f) s = .next t ∧ { t with out := s.out } = s ∧
        t.out.memWe = false ∧
        ∃ q : Channel, t.out.resQ = some q ∧ q.toNat = c.toNat * 255 / d.toNat) ∧
    (¬ c.toNat < d.toNat → exec (.scale c d e f) s = .refused .scaleOutOfDomain)

/-- R63: every admitted pair gives a channel of at most 254. -/
def Obligations.ScaleAtMost254 : Prop :=
  ∀ (s : State) (c d e f : Word), legal s.params = true → c.toNat < d.toNat →
    ∃ t q, exec (.scale c d e f) s = .next t ∧ t.out.resQ = some q ∧ q.toNat ≤ 254

/-- R64: for `d = 256` the channel is `max(c − 1, 0)`, which is `(c × 255) >> 8`; so for this
hardware's parameters an in-bounds INVOKE's word has the red channel `max(x − 1, 0)` and the green
channel `max(y − 1, 0)`. -/
def Obligations.ScaleClosedForm256 : Prop :=
  (∀ (s : State) (c e f : Word), legal s.params = true → c.toNat ≤ 255 →
    ∃ t q, exec (.scale c 256 e f) s = .next t ∧ t.out.resQ = some q ∧
      q.toNat = c.toNat - 1 ∧ q.toNat = (c.toNat * 255) >>> 8) ∧
  (∀ (s : State) (b : PixelBuffer) (x y z d : Word), s.params = Params.thisHardware →
    s.buf = some b → 65536 ≤ b.len → x.toNat < 256 → y.toNat < 256 →
    ∃ t w, exec (.invoke x y z d) s = .next t ∧ t.out.memWdata = some w ∧
      (w.extractLsb' 0 8).toNat = x.toNat - 1 ∧ (w.extractLsb' 8 8).toNat = y.toNat - 1)

/-- R66: SCALE is non-decreasing in `c`, and for `d ≥ 255` successive values differ by 0 or 1. -/
def Obligations.ScaleIsMonotone : Prop :=
  ∀ (s : State) (c c' d e f : Word), legal s.params = true →
    c.toNat ≤ c'.toNat → c'.toNat < d.toNat →
    ∃ t t' q q', exec (.scale c d e f) s = .next t ∧ exec (.scale c' d e f) s = .next t' ∧
      t.out.resQ = some q ∧ t'.out.resQ = some q' ∧ q.toNat ≤ q'.toNat ∧
      (c'.toNat = c.toNat + 1 → 255 ≤ d.toNat → q'.toNat ≤ q.toNat + 1)

-- ---------------------------------------------------------------- PACK (42)

/-- R67: encoding, operand check, the packed word; refused at decode and by the operation where a
channel operand has a nonzero bit above bit 7. Nothing but the output ports changes. -/
def Obligations.PackResult : Prop :=
  ∀ (s : State) (r g b a : Word), legal s.params = true →
    (r.toNat < 256 ∧ g.toNat < 256 ∧ b.toNat < 256 ∧ a.toNat < 256 →
      decode (a ++ b ++ g ++ r ++ (3 : BitVec 2)) = .ok (.pack r g b a) ∧
      ∃ t, exec (.pack r g b a) s = .next t ∧ { t with out := s.out } = s ∧
        t.out.memWe = false ∧
        t.out.resWord = some ((a <<< 24) ||| (b <<< 16) ||| (g <<< 8) ||| r)) ∧
    (¬ (r.toNat < 256 ∧ g.toNat < 256 ∧ b.toNat < 256 ∧ a.toNat < 256) →
      decode (a ++ b ++ g ++ r ++ (3 : BitVec 2)) = .error .packOperandWidth ∧
      exec (.pack r g b a) s = .refused .packOperandWidth)

/-- R68: each lane of the result is its channel operand, unchanged; no carry crosses a lane. -/
def Obligations.PackLanes : Prop :=
  ∀ (s : State) (r g b a : Channel), legal s.params = true →
    ∃ t w, exec (.pack (r.setWidth 32) (g.setWidth 32) (b.setWidth 32) (a.setWidth 32)) s = .next t ∧
      t.out.resWord = some w ∧
      w.extractLsb' 0 8 = r ∧ w.extractLsb' 8 8 = g ∧ w.extractLsb' 16 8 = b ∧
      w.extractLsb' 24 8 = a

/-- R69: packing the four bytes of a word gives the word back, and two packings that agree have the
same channels: PACK is a bijection from four channels onto words. -/
def Obligations.PackIsBijection : Prop :=
  ∀ s : State, legal s.params = true →
    (∀ w : Word, ∃ t,
      exec (.pack ((w.extractLsb' 0 8).setWidth 32) ((w.extractLsb' 8 8).setWidth 32)
        ((w.extractLsb' 16 8).setWidth 32) ((w.extractLsb' 24 8).setWidth 32)) s = .next t ∧
      t.out.resWord = some w) ∧
    (∀ (r g b a r' g' b' a' : Channel) (t t' : State),
      exec (.pack (r.setWidth 32) (g.setWidth 32) (b.setWidth 32) (a.setWidth 32)) s = .next t →
      exec (.pack (r'.setWidth 32) (g'.setWidth 32) (b'.setWidth 32) (a'.setWidth 32)) s = .next t' →
      t.out.resWord = t'.out.resWord → r = r' ∧ g = g' ∧ b = b' ∧ a = a')

/-- MAP_INDEX, SCALE and PACK change the output ports and nothing else: not the buffer (R23), not the
fault set, not the parameters, not the dispatch. -/
def Obligations.SubunitFrame : Prop :=
  ∀ (s t : State) (a b c d : Word),
    (exec (.mapIndex a b c d) s = .next t → { t with out := s.out } = s) ∧
    (exec (.scale a b c d) s = .next t → { t with out := s.out } = s) ∧
    (exec (.pack a b c d) s = .next t → { t with out := s.out } = s)

/-- R47: an operand field marked ignored is read by no rule. (INVOKE's `z` is ignored too; it only
stands in the record of a fault, R86.) -/
def Obligations.IgnoredFieldsAreNotRead : Prop :=
  ∀ (s : State) (a b c d c' d' : Word),
    exec (.mapIndex a b c d) s = exec (.mapIndex a b c' d') s ∧
    exec (.scale a b c d) s = exec (.scale a b c' d') s ∧
    exec (.invoke a b c d) s = exec (.invoke a b c d') s ∧
    (∀ t t', exec (.invoke a b c d) s = .next t → exec (.invoke a b c' d') s = .next t' →
      t.faults = s.faults → t'.faults = s.faults → t = t')

-- ---------------------------------------------------------------- INVOKE (43)

/-- R71: encoding; out of bounds nothing happens, whatever the buffer; in bounds the packed word is
written at the exact index, or the fault is recorded and nothing written. -/
def Obligations.InvokeResult : Prop :=
  ∀ (s : State) (x y z d : Word), legal s.params = true →
    decode (d ++ z ++ y ++ x ++ (0 : BitVec 2)) = .ok (.invoke x y z d) ∧
    (s.params.width ≤ x.toNat ∨ s.params.height ≤ y.toNat →
      ∃ t, exec (.invoke x y z d) s = .next t ∧ { t with out := s.out } = s ∧
        t.out.memWe = false) ∧
    (∀ b, s.buf = some b → x.toNat < s.params.width → y.toNat < s.params.height →
      ∃ i w : Word, i.toNat = y.toNat * s.params.width + x.toNat ∧
        w.toNat = (s.params.aValue <<< 24) ||| (s.params.bValue <<< 16) |||
          ((y.toNat * 255 / s.params.height) <<< 8) ||| (x.toNat * 255 / s.params.width) ∧
        (i.toNat < b.len →
          ∃ t, exec (.invoke x y z d) s = .next t ∧
            { t with out := s.out, buf := s.buf } = s ∧
            t.buf = some (b.write i.toNat w) ∧
            t.out.memWe = true ∧ t.out.memIdx = some i ∧ t.out.memWdata = some w) ∧
        (b.len ≤ i.toNat →
          ∃ t, exec (.invoke x y z d) s = .next t ∧
            { t with out := s.out, faults := s.faults } = s ∧
            t.out.memWe = false ∧
            ∀ r, r ∈ t.faults ↔
              r ∈ s.faults ∨ r = { reason := .bufferTooSmall, coord := ⟨x, y, z⟩, info := i }))

/-- What INVOKE leaves unchanged: the index it stores to is `linearIndex` of its coordinates, stored
to only in bounds and below `BUF_LEN`; every other word reads as before, the stored word reads the
pixel word, and the buffer keeps its length (R19, R32, R74). -/
def Obligations.InvokeFrame : Prop :=
  ∀ (s t : State) (x y z d : Word), exec (.invoke x y z d) s = .next t →
    t.params = s.params ∧ t.pending = s.pending ∧ t.launch = s.launch ∧
    t.readData = s.readData ∧ t.inputs = s.inputs ∧ t.draws = s.draws ∧
    (s.buf = none → t.buf = none) ∧
    (inBounds s.params x y = false → t.faults = s.faults) ∧
    (∀ b, s.buf = some b → ∃ b', t.buf = some b' ∧ b'.len = b.len ∧
      (∀ j, j ≠ (linearIndex s.params x y).toNat → b'.word j = b.word j) ∧
      (inBounds s.params x y = false → b' = b) ∧
      (b.len ≤ (linearIndex s.params x y).toNat → b' = b) ∧
      ((linearIndex s.params x y).toNat < b.len → t.faults = s.faults) ∧
      (inBounds s.params x y = true → (linearIndex s.params x y).toNat < b.len →
        b'.word (linearIndex s.params x y).toNat = pixelWord s.params x.toNat y.toNat))

/-- R79: INVOKE writes `pixel_word(x, y)` at word `y × W + x`; for this hardware the word is
`0xFF800000 | (max(y − 1, 0) << 8) | max(x − 1, 0)`. -/
def Obligations.InvokeWritesPixelWord : Prop :=
  ∀ (s : State) (b : PixelBuffer) (x y z d : Word), legal s.params = true → s.buf = some b →
    s.params.width * s.params.height ≤ b.len →
    x.toNat < s.params.width → y.toNat < s.params.height →
    ∃ t b', exec (.invoke x y z d) s = .next t ∧ t.buf = some b' ∧
      (b'.word (y.toNat * s.params.width + x.toNat)).toNat =
        (s.params.aValue <<< 24) ||| (s.params.bValue <<< 16) |||
          ((y.toNat * 255 / s.params.height) <<< 8) ||| (x.toNat * 255 / s.params.width) ∧
      (s.params = Params.thisHardware →
        (b'.word (y.toNat * 256 + x.toNat)).toNat =
          0xFF800000 ||| ((y.toNat - 1) <<< 8) ||| (x.toNat - 1))

/-- R75: the word and the index an invocation writes are functions of `(x, y)` and the parameters
alone: not of `z`, the buffer, the faults, the dispatch or any other state. -/
def Obligations.InvokeIsPure : Prop :=
  ∀ (s s' t t' : State) (x y z d z' d' : Word), s.params = s'.params →
    exec (.invoke x y z d) s = .next t → exec (.invoke x y z' d') s' = .next t' →
    t.out.memWe = true → t'.out.memWe = true →
    t.out.memIdx = t'.out.memIdx ∧ t.out.memWdata = t'.out.memWdata

/-- R12: the block keeps no state from one operation to the next: what an operation answers depends on
its operands, the parameters and the bound buffer's length alone. -/
def Obligations.AnswersDependOnNoState : Prop :=
  ∀ (i : Instr) (s s' t : State), s.params = s'.params →
    s.buf.map PixelBuffer.len = s'.buf.map PixelBuffer.len →
    exec i s = .next t → ∃ t', exec i s' = .next t' ∧ t'.out = t.out

/-- R73, R2 and 95_test_vectors.md P5: one pixel through MAP_INDEX, SCALE twice and PACK gives the
index and the word that INVOKE writes; so INVOKE meets neither SCALE's nor PACK's refusal. (`W` and
`H` below `2^32`, so that SCALE's operand field can hold them.) -/
def Obligations.InvokeIsComposition : Prop :=
  ∀ (s : State) (b : PixelBuffer) (x y z d : Word), legal s.params = true → s.buf = some b →
    s.params.width < 2 ^ 32 → s.params.height < 2 ^ 32 →
    s.params.width * s.params.height ≤ b.len →
    x.toNat < s.params.width → y.toNat < s.params.height →
    ∃ (t1 t2 t3 t4 t5 : State) (i w : Word) (r g : Channel) (b' : PixelBuffer),
      exec (.mapIndex x y 0 0) s = .next t1 ∧ t1.out.resIdx = some i ∧
      exec (.scale x (BitVec.ofNat 32 s.params.width) 0 0) t1 = .next t2 ∧ t2.out.resQ = some r ∧
      exec (.scale y (BitVec.ofNat 32 s.params.height) 0 0) t2 = .next t3 ∧ t3.out.resQ = some g ∧
      exec (.pack (r.setWidth 32) (g.setWidth 32) (BitVec.ofNat 32 s.params.bValue)
        (BitVec.ofNat 32 s.params.aValue)) t3 = .next t4 ∧ t4.out.resWord = some w ∧
      exec (.invoke x y z d) s = .next t5 ∧
      t5.out.memIdx = some i ∧ t5.out.memWdata = some w ∧
      t5.buf = some b' ∧ b'.word i.toNat = w

/-- R25 and R19: no operation writes a word at or past `W × H`, or resizes the buffer. -/
def Obligations.WordsPastTheImageAreKept : Prop :=
  ∀ (i : Instr) (s t : State) (b : PixelBuffer), exec i s = .next t → s.buf = some b →
    ∃ b', t.buf = some b' ∧ b'.len = b.len ∧
      ∀ j, s.params.width * s.params.height ≤ j → b'.word j = b.word j

/-- R32: writing the same word again with the same value changes nothing: repeating an invocation
that wrote gives the state it is repeated in, whatever its ignored operands. -/
def Obligations.WritesAreIdempotent : Prop :=
  ∀ (s t : State) (x y z d z' d' : Word), exec (.invoke x y z d) s = .next t →
    t.out.memWe = true → exec (.invoke x y z' d') t = .next t

/-- R36, R43: two invocations, with the same or with different coordinates, leave the same words and
the same faults in either order. -/
def Obligations.InvocationsCommute : Prop :=
  ∀ (s : State) (b : PixelBuffer) (x y z d x' y' z' d' : Word), legal s.params = true →
    s.buf = some b →
    ∃ t u t' u' c c', exec (.invoke x y z d) s = .next t ∧ exec (.invoke x' y' z' d') t = .next u ∧
      exec (.invoke x' y' z' d') s = .next t' ∧ exec (.invoke x y z d) t' = .next u' ∧
      u.buf = some c ∧ u'.buf = some c' ∧ c.len = c'.len ∧ (∀ j, c.word j = c'.word j) ∧
      ∀ r, r ∈ u.faults ↔ r ∈ u'.faults

-- ---------------------------------------------------------------- faults and refusals (60, 00)

/-- R86: BufferTooSmall, code 1, is recorded by INVOKE only, exactly when the coordinates are in
bounds and the index is not below `BUF_LEN`, as (reason, coordinates, index). -/
def Obligations.BufferTooSmallCondition : Prop :=
  Fault.code .bufferTooSmall = 1 ∧
  (∀ (i : Instr) (s t : State) (r : FaultRecord), exec i s = .next t → r ∈ t.faults →
    r ∉ s.faults →
    ∃ x y z d b, i = .invoke x y z d ∧ s.buf = some b ∧ x.toNat < s.params.width ∧
      y.toNat < s.params.height ∧ b.len ≤ y.toNat * s.params.width + x.toNat ∧
      r.reason = .bufferTooSmall ∧ r.coord = ⟨x, y, z⟩ ∧
      r.info.toNat = y.toNat * s.params.width + x.toNat) ∧
  (∀ (s : State) (b : PixelBuffer) (x y z d : Word), legal s.params = true → s.buf = some b →
    x.toNat < s.params.width → y.toNat < s.params.height →
    b.len ≤ y.toNat * s.params.width + x.toNat →
    ∃ t r, exec (.invoke x y z d) s = .next t ∧ r ∈ t.faults ∧ r.reason = .bufferTooSmall ∧
      r.coord = ⟨x, y, z⟩ ∧ r.info.toNat = y.toNat * s.params.width + x.toNat)

/-- R87: a recorded fault is never cleared by any later step of the dispatch: while an invocation is
pending, only a reset drops one. -/
def Obligations.FaultsAreNeverCleared : Prop :=
  ∀ (s t : State), s.pending ≠ [] → s.inputs.head? ≠ some .reset → step s = .next t →
    ∀ r ∈ s.faults, r ∈ t.faults

/-- R6: the parameters are legal only when all five conditions hold; this hardware's values are
legal; a configuration that breaks one is refused: by every operation (log 9), before any refusal of
its own (log 27), and by a launch. -/
def Obligations.IllegalParametersAreRefused : Prop :=
  (∀ p : Params, legal p = true ↔ 1 ≤ p.width ∧ 1 ≤ p.height ∧ p.width * p.height ≤ 2 ^ 32 ∧
    p.width ≤ 2 ^ 32 ∧ p.height ≤ 2 ^ 32 ∧ p.bValue ≤ 255 ∧ p.aValue ≤ 255) ∧
  legal Params.thisHardware = true ∧
  (∀ (s : State), legal s.params = false →
    (∀ i, exec i s = .refused .parameterIllegal) ∧
    (∀ gx gy gz rest, s.pending = [] → s.inputs = .dispatch gx gy gz :: rest →
      step s = .refused .parameterIllegal))

/-- R80, R88: with legal parameters, a launch with no buffer bound is refused; so is a lone in-bounds
INVOKE request, which has no buffer to write (the model's choice, log 8), but not an out-of-bounds
one, which ends at the guard. -/
def Obligations.NoBufferIsRefused : Prop :=
  ∀ s : State, legal s.params = true → s.buf = none →
    (∀ gx gy gz rest, s.pending = [] → s.inputs = .dispatch gx gy gz :: rest →
      step s = .refused .noBufferBound) ∧
    (∀ x y z d, x.toNat < s.params.width → y.toNat < s.params.height →
      exec (.invoke x y z d) s = .refused .noBufferBound) ∧
    (∀ x y z d, ¬ (x.toNat < s.params.width ∧ y.toNat < s.params.height) →
      ∃ t, exec (.invoke x y z d) s = .next t ∧ { t with out := s.out } = s)

/-- Which refusal an operation can end in: SCALE's and PACK's as 60_exceptions.md section 1 lists them,
and INVOKE meets neither (R88, R89). That every operation is refused under illegal parameters is the
model's choice (log 9), and so is an INVOKE refused with no buffer bound (log 8: R88 gives that refusal
to a launch). No operation is refused for want of a meaning. -/
def Obligations.RefusalReasons : Prop :=
  ∀ (i : Instr) (s : State) (r : Refusal), exec i s = .refused r →
    (r = .parameterIllegal ∧ legal s.params = false) ∨
    (r = .noBufferBound ∧ s.buf = none ∧ ∃ x y z d, i = .invoke x y z d) ∨
    (r = .scaleOutOfDomain ∧ ∃ c d e f, i = .scale c d e f ∧ d.toNat ≤ c.toNat) ∨
    (r = .packOperandWidth ∧ i.wellFormed = false)

-- ---------------------------------------------------------------- launch and dispatch (43, 30)

/-- R80: the launch makes every triple of the grid pending, once, empties the fault set and keeps the
buffer; it remembers the buffer at launch (log 21). -/
def Obligations.LaunchMakesGridPending : Prop :=
  ∀ (s : State) (b : PixelBuffer) (gx gy gz : Nat) (rest : List HostMove),
    legal s.params = true → s.buf = some b → s.pending = [] →
    s.inputs = .dispatch gx gy gz :: rest →
    ∃ t, step s = .next t ∧
      { t with pending := s.pending, faults := s.faults, launch := s.launch, inputs := s.inputs } = s ∧
      t.inputs = rest ∧ t.faults = [] ∧ t.pending.Nodup ∧
      (∀ c, c ∈ t.pending ↔ c.x.toNat < gx ∧ c.y.toNat < gy ∧ c.z.toNat < gz) ∧
      t.launch = some { gx := gx, gy := gy, gz := gz, buf0 := b }

/-- R55: `DISPATCH_TILES tx, ty` stands for `DISPATCH 8 × tx, 8 × ty, 1`, and the INVOKE of a triple
has the request `(x << 2) | (y << 34) | (z << 66)`. -/
def Obligations.DispatchTilesIsDispatch : Prop :=
  (∀ (s : State) (tx ty : Nat) (rest : List HostMove),
    step { s with inputs := .dispatchTiles tx ty :: rest, pending := [] } =
      step { s with inputs := .dispatch (8 * tx) (8 * ty) 1 :: rest, pending := [] }) ∧
  (∀ c : Coord, (encode c.instr).toNat =
    (c.x.toNat <<< 2) ||| (c.y.toNat <<< 34) ||| (c.z.toNat <<< 66))

/-- R109: a dispatch completes after exactly `gx × gy × gz` steps, under every schedule: after `n`
steps all but `n` of the invocations are still pending. The schedule `ks` is the dispatcher's; where
it ends the choice is free (log 12). -/
def Obligations.DispatchCompletes : Prop :=
  ∀ (s : State) (b : PixelBuffer) (gx gy gz : Nat) (ks : List Nat) (n : Nat),
    legal s.params = true → s.buf = some b → s.pending = [] →
    gx ≤ 2 ^ 32 → gy ≤ 2 ^ 32 → gz ≤ 2 ^ 32 →
    s.inputs = .dispatch gx gy gz :: ks.map .pick → n ≤ gx * gy * gz →
    ∃ t : State, Host.Core.run Sys2Proof.core (n + 1) s = .next t ∧
      t.pending.length = gx * gy * gz - n

/-- R35, R82: the buffer after a complete, fault-free dispatch, under every schedule: the pixel word
where the grid covers the word, else what it held at launch; under-dispatch is no fault. A buffer of
at least `W × H` words gives no fault. -/
def Obligations.CleanDispatchResult : Prop :=
  ∀ (s : State) (b : PixelBuffer) (gx gy gz : Nat) (ks : List Nat),
    legal s.params = true → s.buf = some b → s.pending = [] →
    gx ≤ 2 ^ 32 → gy ≤ 2 ^ 32 → gz ≤ 2 ^ 32 →
    s.inputs = .dispatch gx gy gz :: ks.map .pick →
    ∃ (t : State) (b' : PixelBuffer),
      Host.Core.run Sys2Proof.core (gx * gy * gz + 1) s = .next t ∧
      t.pending = [] ∧ t.buf = some b' ∧ b'.len = b.len ∧
      (s.params.width * s.params.height ≤ b.len → t.faults = []) ∧
      (t.faults = [] → ∀ j, j < b.len →
        b'.word j =
          if j < s.params.width * s.params.height ∧ j % s.params.width < gx ∧
              j / s.params.width < gy ∧ 1 ≤ gz then
            pixelWord s.params (j % s.params.width) (j / s.params.width)
          else b.word j)

/-- R107: dispatching any grid, under any schedule, over a buffer that already holds the complete image
completes clean and leaves every word as it is, whoever made that image: each covered word is rewritten
with the value it holds. And R81's last part: the same dispatch again, under any schedules, on a
complete, clean dispatch's own output leaves every word unchanged, whatever its grid covers. (Extents
that 32-bit coordinates can hold, log 16.) -/
def Obligations.RedispatchChangesNothing : Prop :=
  (∀ (s : State) (b : PixelBuffer) (gx gy gz : Nat) (ks : List Nat),
    legal s.params = true → s.buf = some b → s.pending = [] →
    gx ≤ 2 ^ 32 → gy ≤ 2 ^ 32 → gz ≤ 2 ^ 32 →
    s.inputs = .dispatch gx gy gz :: ks.map .pick →
    s.params.width * s.params.height ≤ b.len →
    (∀ j, j < s.params.width * s.params.height → b.word j = pixelWordAt s.params j) →
    ∃ (t : State) (c : PixelBuffer),
      Host.Core.run Sys2Proof.core (gx * gy * gz + 1) s = .next t ∧
      t.pending = [] ∧ t.faults = [] ∧ t.buf = some c ∧ c.len = b.len ∧
      ∀ j, j < b.len → c.word j = b.word j) ∧
  (∀ (s s' t t' : State) (b c c' : PixelBuffer) (gx gy gz : Nat) (ks ks' : List Nat),
    legal s.params = true → s.buf = some b → s.pending = [] →
    gx ≤ 2 ^ 32 → gy ≤ 2 ^ 32 → gz ≤ 2 ^ 32 →
    s.inputs = .dispatch gx gy gz :: ks.map .pick →
    Host.Core.run Sys2Proof.core (gx * gy * gz + 1) s = .next t →
    s' = { t with inputs := .dispatch gx gy gz :: ks'.map .pick } →
    Host.Core.run Sys2Proof.core (gx * gy * gz + 1) s' = .next t' →
    t.faults = [] → t'.faults = [] → t.buf = some c → t'.buf = some c' →
    ∀ j, j < b.len → c'.word j = c.word j)

/-- R86, R89: the faults of a complete dispatch, under every schedule: exactly one for each triple of
the grid that is in bounds with an index not below `BUF_LEN`. -/
def Obligations.FaultsOfCompleteDispatch : Prop :=
  ∀ (s : State) (b : PixelBuffer) (gx gy gz : Nat) (ks : List Nat),
    legal s.params = true → s.buf = some b → s.pending = [] →
    gx ≤ 2 ^ 32 → gy ≤ 2 ^ 32 → gz ≤ 2 ^ 32 →
    s.inputs = .dispatch gx gy gz :: ks.map .pick →
    ∃ t : State, Host.Core.run Sys2Proof.core (gx * gy * gz + 1) s = .next t ∧
      t.faults.Nodup ∧
      ∀ r, r ∈ t.faults ↔
        r.reason = .bufferTooSmall ∧ r.coord.x.toNat < gx ∧ r.coord.y.toNat < gy ∧
        r.coord.z.toNat < gz ∧ r.coord.x.toNat < s.params.width ∧
        r.coord.y.toNat < s.params.height ∧ b.len ≤ r.info.toNat ∧
        r.info.toNat = r.coord.y.toNat * s.params.width + r.coord.x.toNat

/-- R36: no order among invocations: two complete runs of one dispatch under two schedules record the
same faults, and those of a clean dispatch, which records none, leave the same words. (Of the buffer of
a faulted dispatch nothing is said, R80.) -/
def Obligations.ScheduleDoesNotMatter : Prop :=
  ∀ (s s' t t' : State) (b c c' : PixelBuffer) (gx gy gz : Nat) (ks ks' : List Nat),
    legal s.params = true → s.buf = some b → s.pending = [] →
    gx ≤ 2 ^ 32 → gy ≤ 2 ^ 32 → gz ≤ 2 ^ 32 →
    s.inputs = .dispatch gx gy gz :: ks.map .pick →
    s' = { s with inputs := .dispatch gx gy gz :: ks'.map .pick } →
    Host.Core.run Sys2Proof.core (gx * gy * gz + 1) s = .next t →
    Host.Core.run Sys2Proof.core (gx * gy * gz + 1) s' = .next t' →
    t.buf = some c → t'.buf = some c' →
    (∀ r, r ∈ t.faults ↔ r ∈ t'.faults) ∧
    (t.faults = [] → ∀ j, j < b.len → c.word j = c'.word j)

/-- R83: the conventional grid covers the image, is a multiple of the tile side in both used
dimensions, is the least such, and is `256 × 256 × 1` for this hardware. -/
def Obligations.ConventionalGridCovers : Prop :=
  (∀ p : Params, ∃ gx gy, conventionalGrid p = (gx, gy, 1) ∧
    p.width ≤ gx ∧ p.height ≤ gy ∧ gx < p.width + 8 ∧ gy < p.height + 8 ∧
    gx % 8 = 0 ∧ gy % 8 = 0) ∧
  conventionalGrid Params.thisHardware = (256, 256, 1)

-- ---------------------------------------------------------------- invariant

/-- State.reset has the invariant (it rests on the buffer the model binds at reset, log 3). -/
def Obligations.ResetHasInvariant : Prop := State.reset.Inv

/-- Every step keeps the invariant: legal parameters, the canonical form of the buffer's words and of
the fault set, the soundness of every fault (R86), the launch record, and for every word of a
fault-free dispatch that it is the old word or the final pixel word, final once no invocation of its
pixel is pending (R25, R31, R35). -/
def Obligations.StepKeepsInvariant : Prop :=
  ∀ s t : State, s.Inv → step s = .next t → t.Inv

/-- In every state with the invariant whose dispatch is complete and clean, every word is as R81's
first part says. -/
def Obligations.InvariantGivesDispatchResult : Prop :=
  ∀ (s : State) (l : Launch) (b : PixelBuffer), s.Inv → s.launch = some l → s.buf = some b →
    s.Clean → ∀ j, j < b.len →
      b.word j =
        if j < s.params.width * s.params.height ∧ j % s.params.width < l.gx ∧
            j / s.params.width < l.gy ∧ 1 ≤ l.gz then
          pixelWord s.params (j % s.params.width) (j / s.params.width)
        else l.buf0.word j

-- ---------------------------------------------------------------- reset and the host (70, 20)

/-- R22: after reset no invocation is in flight, no fault is recorded, and the parameters are this
hardware's. -/
def Obligations.ResetState : Prop :=
  State.reset.pending = [] ∧ State.reset.faults = [] ∧ State.reset.params = Params.thisHardware

/-- R99: reset between dispatches leaves no invocation in flight and no fault recorded, changes neither
the buffer nor the parameters, and leaves the block ready: with legal parameters and a bound buffer
it takes any invocation. -/
def Obligations.ResetBetweenDispatches : Prop :=
  ∀ (s : State) (rest : List HostMove), s.pending = [] → s.inputs = .reset :: rest →
    ∃ t, step s = .next t ∧ t.pending = [] ∧ t.faults = [] ∧ t.buf = s.buf ∧
      t.params = s.params ∧ t.inputs = rest ∧
      (legal s.params = true → s.buf ≠ none →
        ∀ x y z d, ∃ u, exec (.invoke x y z d) t = .next u)

/-- R101: reset while a dispatch is in flight ends it at once; every word whose pixel is in the grid
then holds its value from before the dispatch or its pixel word, every other word its value from
before. (That both outcomes are possible for each word lies in the model's free value, log 14.) -/
def Obligations.ResetDuringDispatch : Prop :=
  ∀ (s : State) (l : Launch) (rest : List HostMove), legal s.params = true → s.pending ≠ [] →
    s.launch = some l → s.inputs = .reset :: rest →
    ∃ t b', step s = .next t ∧ t.pending = [] ∧ t.faults = [] ∧ t.params = s.params ∧
      t.inputs = rest ∧ t.buf = some b' ∧ b'.len = l.buf0.len ∧
      ∀ j, j < b'.len →
        (l.Covers s.params j →
          b'.word j = l.buf0.word j ∨ b'.word j = pixelWordAt s.params j) ∧
        (¬ l.Covers s.params j → b'.word j = l.buf0.word j)

/-- R37: once the dispatch is complete, a host read of word `j` returns it, every write made. -/
def Obligations.HostReadAfterCompletion : Prop :=
  ∀ (s : State) (b : PixelBuffer) (j : Nat) (rest : List HostMove), s.pending = [] →
    s.buf = some b → j < b.len → s.inputs = .read j :: rest →
    step s = .next { s with inputs := rest, readData := some (b.word j) }

/-- R38: a host read while a dispatch is in flight returns the word's value before the dispatch or
its value as written so far; it changes no word. (Which of the two is the model's free value,
log 13; reading outside the buffer is refused, log 15.) -/
def Obligations.HostReadDuringDispatch : Prop :=
  ∀ (s : State) (b : PixelBuffer) (l : Launch) (j : Nat) (rest : List HostMove),
    s.pending ≠ [] → s.launch = some l → s.buf = some b → s.inputs = .read j :: rest →
    (j < b.len → ∃ t v, step s = .next t ∧ t.readData = some v ∧
      (v = l.buf0.word j ∨ v = b.word j) ∧
      { t with readData := s.readData, inputs := s.inputs, draws := s.draws } = s) ∧
    (b.len ≤ j → step s = .refused .readOutsideBuffer)

/-- Binding a buffer, no invocation in flight: its length and the words the host states, for every list
of them, empty ones too. Where the list names a word more than once its last entry counts, and an entry
past the length is no word (the model's choice, log 26). Every word the host does not state holds a
free value of that buffer (log 4). -/
def Obligations.BindGivesBuffer : Prop :=
  ∀ (s : State) (len : Nat) (init : Memory) (rest : List HostMove), s.pending = [] →
    s.inputs = .bind len init :: rest →
    ∃ t b, step s = .next t ∧ t.buf = some b ∧ b.len = len ∧ b.words.wf b.len ∧
      (∀ pre j v post, init = pre ++ (j, v) :: post → (∀ c ∈ post, c.1 ≠ j) → j < len →
        b.word j = v) ∧
      (∀ j, (∀ c ∈ init, c.1 ≠ j) ∨ len ≤ j → b.word j = Config.unwritten s.draws j) ∧
      t.params = s.params ∧ t.pending = [] ∧ t.faults = s.faults

/-- Taking the buffer back: none is bound then, and nothing else of the block changes (R19). -/
def Obligations.ReleaseUnbinds : Prop :=
  ∀ (s : State) (rest : List HostMove), s.pending = [] → s.inputs = .release :: rest →
    step s = .next { s with inputs := rest, buf := none, launch := none }

/-- R28: word `i` occupies bytes `BUF_BASE + 4i` to `BUF_BASE + 4i + 3`; byte `k` of it is
`word[8k+7:8k]` under little-endian, and under big-endian the bytes run in the opposite order;
`BUF_BASE` is a multiple of 4. -/
def Obligations.ByteViewOfWords : Prop :=
  ∀ (b : PixelBuffer) (base i k : Nat), base % 4 = 0 → i < b.len → k < 4 →
    b.byteAt .littleEndian base (base + 4 * i + k) = some ((b.word i).extractLsb' (8 * k) 8) ∧
    b.byteAt .bigEndian base (base + 4 * i + k) = some ((b.word i).extractLsb' (8 * (3 - k)) 8)

/-- Lines of assembler text and the moves they stand for (R54, R55), among them the spec's own requests
of 95_test_vectors.md. That a line may leave out the blank after a comma is the model's choice (log 22):
R54 leaves blanks open. -/
def Obligations.AssemblerLines : Prop :=
  assemble ['S', 'C', 'A', 'L', 'E', ' ', '2', '5', '5', ',', ' ', '2', '5', '6', ' ', '-', '>',
    ' ', '2', '5', '4'] = some (.request 0x400000003FE) ∧
  assemble ['I', 'N', 'V', 'O', 'K', 'E', ' ', '2', ',', '3', ' ', ';', ' ', 'z'] =
    some (.request 0xC00000008) ∧
  assemble ['M', 'A', 'P', '_', 'I', 'N', 'D', 'E', 'X', ' ', '0', 'x', '1', '0', '0', ',', ' ',
    '0'] = some (.request 0x401) ∧
  assemble ['P', 'A', 'C', 'K', ' ', '0', ',', '0', ',', '0', ',', '0', 'x', '1', '0', '0'] =
    some (.request 0x400000000000000000000000003) ∧
  assemble ['D', 'I', 'S', 'P', 'A', 'T', 'C', 'H', ' ', '2', ',', '3'] = some (.dispatch 2 3 1) ∧
  assemble ['S', 'C', 'A', 'L', 'E', ' ', '1'] = none

/-- A host read of a word that does not exist, at or past `BUF_LEN` or with no buffer bound, is refused,
with or without a dispatch in flight (the model's choice, log 15). -/
def Obligations.HostReadOutsideBuffer : Prop :=
  ∀ (s : State) (j : Nat) (rest : List HostMove), s.inputs = .read j :: rest →
    (s.buf = none ∨ ∃ b, s.buf = some b ∧ b.len ≤ j) → step s = .refused .readOutsideBuffer

/-- 20_memory.md section 2, the byte view's alignment: with `BUF_BASE` a multiple of 4, the write of an
INVOKE falls at `BUF_BASE + 4 × i`, a multiple of 4, for `i = y × W + x`; its four bytes then read as
the pixel word's, and every other address reads as before, in either byte order. With any other base
there is no byte view (the model's choice, log 1). -/
def Obligations.ByteViewIsAligned : Prop :=
  (∀ (s : State) (b : PixelBuffer) (x y z d : Word) (order : ByteOrder) (base : Nat),
    legal s.params = true → s.buf = some b → base % 4 = 0 →
    x.toNat < s.params.width → y.toNat < s.params.height →
    y.toNat * s.params.width + x.toNat < b.len →
    ∃ (t : State) (c : PixelBuffer) (a : Nat), exec (.invoke x y z d) s = .next t ∧
      t.buf = some c ∧ a = base + 4 * (y.toNat * s.params.width + x.toNat) ∧ a % 4 = 0 ∧
      (∀ k, k < 4 → c.byteAt order base (a + k) =
        some (byteOfWord order (pixelWord s.params x.toNat y.toNat) k)) ∧
      ∀ a', a' < a ∨ a + 4 ≤ a' → c.byteAt order base a' = b.byteAt order base a') ∧
  ∀ (b : PixelBuffer) (order : ByteOrder) (base addr : Nat), base % 4 ≠ 0 →
    b.byteAt order base addr = none
end

