-- ==== Sys2Proof/Laws/Codec.lean ====
section
/-! SUPPORT. The fields of a request and the checks on them: 30_encoding.md rules R45, R47. -/

namespace Sys2Proof

/-- The number a concatenation stands for. -/
theorem toNat_append_eq {n m : Nat} (x : BitVec n) (y : BitVec m) :
    (x ++ y).toNat = x.toNat * 2 ^ m + y.toNat := by
  rw [BitVec.toNat_append, ← Nat.shiftLeft_add_eq_or_of_lt y.isLt, Nat.shiftLeft_eq]

/-- The number a request is (R45). -/
theorem Req.toNat_ofFields (op : BitVec 2) (opa opb opc opd : Word) :
    (Req.ofFields op opa opb opc opd).toNat =
      op.toNat + opa.toNat * 2 ^ 2 + opb.toNat * 2 ^ 34 + opc.toNat * 2 ^ 66 +
        opd.toNat * 2 ^ 98 := by
  have h : (Req.ofFields op opa opb opc opd).toNat =
      (opd ++ opc ++ opb ++ opa ++ op : BitVec (32 + 32 + 32 + 32 + 2)).toNat := rfl
  rw [h]
  simp only [toNat_append_eq]
  omega

section
variable (op : BitVec 2) (opa opb opc opd : Word)

@[simp] theorem Req.op_ofFields : (Req.ofFields op opa opb opc opd).op = op := by
  apply BitVec.eq_of_toNat_eq
  have := op.isLt
  simp only [Req.op, BitVec.extractLsb'_toNat, Nat.shiftRight_eq_div_pow, Req.toNat_ofFields]
  omega

@[simp] theorem Req.opa_ofFields : (Req.ofFields op opa opb opc opd).opa = opa := by
  apply BitVec.eq_of_toNat_eq
  have := op.isLt; have := opa.isLt
  simp only [Req.opa, BitVec.extractLsb'_toNat, Nat.shiftRight_eq_div_pow, Req.toNat_ofFields]
  omega

@[simp] theorem Req.opb_ofFields : (Req.ofFields op opa opb opc opd).opb = opb := by
  apply BitVec.eq_of_toNat_eq
  have := op.isLt; have := opa.isLt; have := opb.isLt
  simp only [Req.opb, BitVec.extractLsb'_toNat, Nat.shiftRight_eq_div_pow, Req.toNat_ofFields]
  omega

@[simp] theorem Req.opc_ofFields : (Req.ofFields op opa opb opc opd).opc = opc := by
  apply BitVec.eq_of_toNat_eq
  have := op.isLt; have := opa.isLt; have := opb.isLt; have := opc.isLt
  simp only [Req.opc, BitVec.extractLsb'_toNat, Nat.shiftRight_eq_div_pow, Req.toNat_ofFields]
  omega

@[simp] theorem Req.opd_ofFields : (Req.ofFields op opa opb opc opd).opd = opd := by
  apply BitVec.eq_of_toNat_eq
  have := op.isLt; have := opa.isLt; have := opb.isLt; have := opc.isLt; have := opd.isLt
  simp only [Req.opd, BitVec.extractLsb'_toNat, Nat.shiftRight_eq_div_pow, Req.toNat_ofFields]
  omega

end

/-- The five fields are the whole request (R45). -/
theorem Req.ofFields_fields (q : Req) : Req.ofFields q.op q.opa q.opb q.opc q.opd = q := by
  apply BitVec.eq_of_toNat_eq
  have := q.isLt
  simp only [Req.toNat_ofFields, Req.op, Req.opa, Req.opb, Req.opc, Req.opd,
    BitVec.extractLsb'_toNat, Nat.shiftRight_eq_div_pow]
  omega

/-- An operand field holds a channel exactly when its value is below 256 (R47, R52). -/
theorem isChannel_iff (v : Word) : isChannel v = true ↔ v.toNat < 256 := by
  have h : (v.extractLsb' 8 24).toNat = v.toNat / 256 := by
    simp only [BitVec.extractLsb'_toNat, Nat.shiftRight_eq_div_pow]
    have := v.isLt
    omega
  constructor
  · intro hc
    have h0 : v.extractLsb' 8 24 = 0#24 := by simpa [isChannel] using hc
    rw [h0] at h
    simp only [BitVec.toNat_ofNat, Nat.zero_mod] at h
    omega
  · intro hv
    have h0 : v.extractLsb' 8 24 = 0#24 := BitVec.eq_of_toNat_eq (by rw [h]; simp; omega)
    simp [isChannel, h0]

/-- A two-bit code is one of the four (R46). -/
theorem opCode_cases (c : BitVec 2) : c = 0 ∨ c = 1 ∨ c = 2 ∨ c = 3 := by
  revert c; decide

end Sys2Proof
end

