-- ==== Sys2Proof/Laws/State.lean ====
section
/-! SUPPORT. What each named update of State does to each field. -/

namespace Sys2Proof.Machine

@[simp] theorem State.answer_params (s : State) (o : Outputs) :
    (s.answer o).params = s.params := rfl
@[simp] theorem State.answer_buf (s : State) (o : Outputs) :
    (s.answer o).buf = s.buf := rfl
@[simp] theorem State.answer_pending (s : State) (o : Outputs) :
    (s.answer o).pending = s.pending := rfl
@[simp] theorem State.answer_faults (s : State) (o : Outputs) :
    (s.answer o).faults = s.faults := rfl
@[simp] theorem State.answer_launch (s : State) (o : Outputs) :
    (s.answer o).launch = s.launch := rfl
@[simp] theorem State.answer_out (s : State) (o : Outputs) :
    (s.answer o).out = o := rfl
@[simp] theorem State.answer_readData (s : State) (o : Outputs) :
    (s.answer o).readData = s.readData := rfl
@[simp] theorem State.answer_inputs (s : State) (o : Outputs) :
    (s.answer o).inputs = s.inputs := rfl
@[simp] theorem State.answer_draws (s : State) (o : Outputs) :
    (s.answer o).draws = s.draws := rfl

@[simp] theorem State.memWrite_params (s : State) (b : PixelBuffer) (i v : Word) :
    (s.memWrite b i v).params = s.params := rfl
@[simp] theorem State.memWrite_buf (s : State) (b : PixelBuffer) (i v : Word) :
    (s.memWrite b i v).buf = some (b.write i.toNat v) := rfl
@[simp] theorem State.memWrite_pending (s : State) (b : PixelBuffer) (i v : Word) :
    (s.memWrite b i v).pending = s.pending := rfl
@[simp] theorem State.memWrite_faults (s : State) (b : PixelBuffer) (i v : Word) :
    (s.memWrite b i v).faults = s.faults := rfl
@[simp] theorem State.memWrite_launch (s : State) (b : PixelBuffer) (i v : Word) :
    (s.memWrite b i v).launch = s.launch := rfl
@[simp] theorem State.memWrite_out (s : State) (b : PixelBuffer) (i v : Word) :
    (s.memWrite b i v).out = { Outputs.idle with memWe := true, memIdx := some i, memWdata := some v } := rfl
@[simp] theorem State.memWrite_readData (s : State) (b : PixelBuffer) (i v : Word) :
    (s.memWrite b i v).readData = s.readData := rfl
@[simp] theorem State.memWrite_inputs (s : State) (b : PixelBuffer) (i v : Word) :
    (s.memWrite b i v).inputs = s.inputs := rfl
@[simp] theorem State.memWrite_draws (s : State) (b : PixelBuffer) (i v : Word) :
    (s.memWrite b i v).draws = s.draws := rfl

@[simp] theorem State.raiseFault_params (s : State) (reason : Fault) (c : Coord) (info : Word) :
    (s.raiseFault reason c info).params = s.params := rfl
@[simp] theorem State.raiseFault_buf (s : State) (reason : Fault) (c : Coord) (info : Word) :
    (s.raiseFault reason c info).buf = s.buf := rfl
@[simp] theorem State.raiseFault_pending (s : State) (reason : Fault) (c : Coord) (info : Word) :
    (s.raiseFault reason c info).pending = s.pending := rfl
@[simp] theorem State.raiseFault_faults (s : State) (reason : Fault) (c : Coord) (info : Word) :
    (s.raiseFault reason c info).faults = insertFault { reason := reason, coord := c, info := info } s.faults := rfl
@[simp] theorem State.raiseFault_launch (s : State) (reason : Fault) (c : Coord) (info : Word) :
    (s.raiseFault reason c info).launch = s.launch := rfl
@[simp] theorem State.raiseFault_out (s : State) (reason : Fault) (c : Coord) (info : Word) :
    (s.raiseFault reason c info).out = Outputs.idle := rfl
@[simp] theorem State.raiseFault_readData (s : State) (reason : Fault) (c : Coord) (info : Word) :
    (s.raiseFault reason c info).readData = s.readData := rfl
@[simp] theorem State.raiseFault_inputs (s : State) (reason : Fault) (c : Coord) (info : Word) :
    (s.raiseFault reason c info).inputs = s.inputs := rfl
@[simp] theorem State.raiseFault_draws (s : State) (reason : Fault) (c : Coord) (info : Word) :
    (s.raiseFault reason c info).draws = s.draws := rfl

@[simp] theorem releaseBuffer_params (s : State) :
    (releaseBuffer s).params = s.params := rfl
@[simp] theorem releaseBuffer_buf (s : State) :
    (releaseBuffer s).buf = none := rfl
@[simp] theorem releaseBuffer_pending (s : State) :
    (releaseBuffer s).pending = s.pending := rfl
@[simp] theorem releaseBuffer_faults (s : State) :
    (releaseBuffer s).faults = s.faults := rfl
@[simp] theorem releaseBuffer_launch (s : State) :
    (releaseBuffer s).launch = none := rfl
@[simp] theorem releaseBuffer_out (s : State) :
    (releaseBuffer s).out = s.out := rfl
@[simp] theorem releaseBuffer_readData (s : State) :
    (releaseBuffer s).readData = s.readData := rfl
@[simp] theorem releaseBuffer_inputs (s : State) :
    (releaseBuffer s).inputs = s.inputs := rfl
@[simp] theorem releaseBuffer_draws (s : State) :
    (releaseBuffer s).draws = s.draws := rfl

@[simp] theorem bindBuffer_params (len : Nat) (init : Memory) (s : State) :
    (bindBuffer len init s).params = s.params := rfl
@[simp] theorem bindBuffer_buf (len : Nat) (init : Memory) (s : State) :
    (bindBuffer len init s).buf = some (init.foldl (fun b c => b.write c.1 c.2) { len := len, words := [], id := s.draws }) := rfl
@[simp] theorem bindBuffer_pending (len : Nat) (init : Memory) (s : State) :
    (bindBuffer len init s).pending = s.pending := rfl
@[simp] theorem bindBuffer_faults (len : Nat) (init : Memory) (s : State) :
    (bindBuffer len init s).faults = s.faults := rfl
@[simp] theorem bindBuffer_launch (len : Nat) (init : Memory) (s : State) :
    (bindBuffer len init s).launch = none := rfl
@[simp] theorem bindBuffer_out (len : Nat) (init : Memory) (s : State) :
    (bindBuffer len init s).out = s.out := rfl
@[simp] theorem bindBuffer_readData (len : Nat) (init : Memory) (s : State) :
    (bindBuffer len init s).readData = s.readData := rfl
@[simp] theorem bindBuffer_inputs (len : Nat) (init : Memory) (s : State) :
    (bindBuffer len init s).inputs = s.inputs := rfl
@[simp] theorem bindBuffer_draws (len : Nat) (init : Memory) (s : State) :
    (bindBuffer len init s).draws = s.draws + 1 := rfl

@[simp] theorem State.withFetchWord_params (s : State) (nbits w : Nat) :
    (s.withFetchWord nbits w).params = s.params := rfl
@[simp] theorem State.withFetchWord_buf (s : State) (nbits w : Nat) :
    (s.withFetchWord nbits w).buf = s.buf := rfl
@[simp] theorem State.withFetchWord_pending (s : State) (nbits w : Nat) :
    (s.withFetchWord nbits w).pending = [] := rfl
@[simp] theorem State.withFetchWord_faults (s : State) (nbits w : Nat) :
    (s.withFetchWord nbits w).faults = s.faults := rfl
@[simp] theorem State.withFetchWord_launch (s : State) (nbits w : Nat) :
    (s.withFetchWord nbits w).launch = s.launch := rfl
@[simp] theorem State.withFetchWord_out (s : State) (nbits w : Nat) :
    (s.withFetchWord nbits w).out = s.out := rfl
@[simp] theorem State.withFetchWord_readData (s : State) (nbits w : Nat) :
    (s.withFetchWord nbits w).readData = s.readData := rfl
@[simp] theorem State.withFetchWord_inputs (s : State) (nbits w : Nat) :
    (s.withFetchWord nbits w).inputs = .request (Req.ofTableWord nbits w) :: s.inputs := rfl
@[simp] theorem State.withFetchWord_draws (s : State) (nbits w : Nat) :
    (s.withFetchWord nbits w).draws = s.draws := rfl

/-- A reset leaves no invocation in flight, no fault and no launch (R99). -/
@[simp] theorem applyReset_pending (s : State) : (applyReset s).pending = [] := by
  unfold applyReset; split <;> rfl
@[simp] theorem applyReset_faults (s : State) : (applyReset s).faults = [] := by
  unfold applyReset; split <;> rfl
@[simp] theorem applyReset_launch (s : State) : (applyReset s).launch = none := by
  unfold applyReset; split <;> rfl
@[simp] theorem applyReset_params (s : State) : (applyReset s).params = s.params := by
  unfold applyReset; split <;> rfl
@[simp] theorem applyReset_out (s : State) : (applyReset s).out = Outputs.idle := by
  unfold applyReset; split <;> rfl
@[simp] theorem applyReset_readData (s : State) : (applyReset s).readData = s.readData := by
  unfold applyReset; split <;> rfl
@[simp] theorem applyReset_inputs (s : State) : (applyReset s).inputs = s.inputs := by
  unfold applyReset; split <;> rfl

/-- Between dispatches a reset leaves the buffer alone (R99). -/
theorem applyReset_buf_of_complete {s : State} (h : s.pending = []) : (applyReset s).buf = s.buf := by
  unfold applyReset; simp [h]

end Sys2Proof.Machine
end

