-- ==== Sys2Proof/Laws/Memory.lean ====
section
/-! SUPPORT. The laws of the buffer's words and of the fault set: read after write, and every operation keeps the canonical form. -/

namespace Sys2Proof.Machine

theorem Memory.wf_nil (len : Nat) : Memory.wf [] len := by simp [Memory.wf]

@[simp] theorem Memory.lookup_insert_same (j : Nat) (v : Word) (m : Memory) :
    (Memory.insert j v m).lookup j = some v := by
  induction m with
  | nil => simp [Memory.insert, Memory.lookup]
  | cons c rest ih =>
    simp only [Memory.insert]
    split
    · simp [Memory.lookup]
    · split
      · simp [Memory.lookup]
      · simp [Memory.lookup, *]

theorem Memory.lookup_insert_of_ne {j k : Nat} (h : k ≠ j) (v : Word) (m : Memory) :
    (Memory.insert j v m).lookup k = m.lookup k := by
  induction m with
  | nil => simp [Memory.insert, Memory.lookup, h.symm]
  | cons c rest ih =>
    simp only [Memory.insert]
    split
    · simp [Memory.lookup, h.symm]
    · split
      · simp_all [Memory.lookup, eq_comm]
      · simp [Memory.lookup, ih]

theorem Memory.insert_insert (j : Nat) (v : Word) (m : Memory) :
    Memory.insert j v (Memory.insert j v m) = Memory.insert j v m := by
  induction m with
  | nil => simp [Memory.insert]
  | cons c rest ih =>
    simp only [Memory.insert]
    split
    · simp [Memory.insert]
    · split
      · simp [Memory.insert]
      · simp [Memory.insert, *]

/-- The indices after an insertion are the old ones and the inserted one. -/
theorem Memory.mem_insert_index {j : Nat} {v : Word} {m : Memory} {c : Nat × Word}
    (h : c ∈ Memory.insert j v m) : c.1 = j ∨ c ∈ m := by
  induction m with
  | nil => simp_all [Memory.insert]
  | cons d rest ih =>
    simp only [Memory.insert] at h
    split at h
    · rcases List.mem_cons.mp h with rfl | h
      · exact .inl rfl
      · exact .inr h
    · split at h
      · rcases List.mem_cons.mp h with rfl | h
        · exact .inl rfl
        · exact .inr (List.mem_cons_of_mem _ h)
      · rcases List.mem_cons.mp h with rfl | h
        · exact .inr (List.mem_cons_self ..)
        · exact (ih h).imp_right (List.mem_cons_of_mem _)

/-- An insertion below `len` keeps the canonical form. -/
theorem Memory.wf_insert {m : Memory} {len j : Nat} (v : Word) (h : m.wf len) (hj : j < len) :
    (Memory.insert j v m).wf len := by
  refine ⟨?_, fun c hc => (Memory.mem_insert_index hc).elim (fun e => e ▸ hj) (h.2 c)⟩
  have hp := h.1
  clear h hj
  induction m with
  | nil => simp [Memory.insert]
  | cons d rest ih =>
    obtain ⟨hd, hr⟩ := List.pairwise_cons.mp hp
    simp only [Memory.insert]
    split
    case isTrue hlt =>
      refine List.pairwise_cons.mpr ⟨fun c hc => ?_, hp⟩
      rcases List.mem_cons.mp hc with rfl | hc
      · exact hlt
      · exact hlt.trans (hd c hc)
    case isFalse hge =>
      split
      case isTrue heq => exact List.pairwise_cons.mpr ⟨fun c hc => by have := hd c hc; simp_all, hr⟩
      case isFalse hne =>
        refine List.pairwise_cons.mpr ⟨fun c hc => ?_, ih hr⟩
        rcases Memory.mem_insert_index hc with e | hc
        · simp only [e]; omega
        · exact hd c hc

@[simp] theorem PixelBuffer.write_len (b : PixelBuffer) (j : Nat) (v : Word) :
    (b.write j v).len = b.len := by unfold PixelBuffer.write; split <;> rfl

@[simp] theorem PixelBuffer.write_id (b : PixelBuffer) (j : Nat) (v : Word) :
    (b.write j v).id = b.id := by unfold PixelBuffer.write; split <;> rfl

/-- A write inside the buffer is read back (R31). -/
theorem PixelBuffer.word_write_same {b : PixelBuffer} {j : Nat} (h : j < b.len) (v : Word) :
    (b.write j v).word j = v := by simp [PixelBuffer.write, PixelBuffer.word, h]

/-- A write changes no other word (R32). -/
theorem PixelBuffer.word_write_of_ne {b : PixelBuffer} {j k : Nat} (h : k ≠ j) (v : Word) :
    (b.write j v).word k = b.word k := by
  unfold PixelBuffer.write
  split
  · simp [PixelBuffer.word, Memory.lookup_insert_of_ne h]
  · rfl

/-- Writing the same value again changes nothing (R32). -/
theorem PixelBuffer.write_write (b : PixelBuffer) (j : Nat) (v : Word) :
    (b.write j v).write j v = b.write j v := by
  by_cases h : j < b.len <;> simp [PixelBuffer.write, h, Memory.insert_insert]

/-- A write keeps the canonical form. -/
theorem PixelBuffer.wf_write {b : PixelBuffer} (h : b.words.wf b.len) (j : Nat) (v : Word) :
    (b.write j v).words.wf (b.write j v).len := by
  unfold PixelBuffer.write
  split
  · exact Memory.wf_insert v h ‹_›
  · exact h

/-- In a byte view every word lies at a multiple of 4 (R29). -/
theorem wordAddress_mod_four {base : Nat} (h : legalBase base = true) (i : Nat) :
    wordAddress base i % 4 = 0 := by
  rw [legalBase, decide_eq_true_eq] at h
  rw [wordAddress]; omega

/-- A byte of the byte view is read from the one word that holds it (R28). -/
theorem PixelBuffer.byteAt_congr {b c : PixelBuffer} {base addr : Nat} (order : ByteOrder)
    (hlen : c.len = b.len) (hw : c.word ((addr - base) / 4) = b.word ((addr - base) / 4)) :
    c.byteAt order base addr = b.byteAt order base addr := by
  simp only [PixelBuffer.byteAt, hlen, hw]

/-- A fold of writes keeps the length, the number and the canonical form of the buffer. -/
theorem PixelBuffer.wf_foldl {α : Type} (f : PixelBuffer → α → PixelBuffer)
    (hlen : ∀ b c, (f b c).len = b.len) (hid : ∀ b c, (f b c).id = b.id)
    (hwf : ∀ b c, b.words.wf b.len → (f b c).words.wf (f b c).len) (cs : List α) (b : PixelBuffer) :
    (cs.foldl f b).len = b.len ∧ (cs.foldl f b).id = b.id ∧
      (b.words.wf b.len → (cs.foldl f b).words.wf (cs.foldl f b).len) := by
  induction cs generalizing b with
  | nil => exact ⟨rfl, rfl, fun h => h⟩
  | cons c cs ih =>
    obtain ⟨h1, h2, h3⟩ := ih (f b c)
    exact ⟨h1.trans (hlen b c), h2.trans (hid b c), fun h => h3 (hwf b c h)⟩

/-- Two numbers written with a last digit below `n` agree only if they agree digit by digit. -/
theorem mul_add_inj {n a b c d : Nat} (hb : b < n) (hd : d < n) (h : a * n + b = c * n + d) :
    a = c ∧ b = d := by
  have h1 : (a * n + b) / n = (c * n + d) / n := by rw [h]
  have h2 : (a * n + b) % n = (c * n + d) % n := by rw [h]
  have hn : 0 < n := by omega
  rw [Nat.mul_comm a, Nat.mul_comm c, Nat.mul_add_div hn, Nat.mul_add_div hn,
    Nat.div_eq_of_lt hb, Nat.div_eq_of_lt hd] at h1
  rw [Nat.mul_comm a, Nat.mul_comm c, Nat.mul_add_mod, Nat.mul_add_mod,
    Nat.mod_eq_of_lt hb, Nat.mod_eq_of_lt hd] at h2
  exact ⟨by omega, h2⟩

/-- The key of a fault record tells it from every other. -/
theorem FaultRecord.key_inj {r f : FaultRecord} (h : r.key = f.key) : r = f := by
  obtain ⟨⟨⟩, ⟨x, y, z⟩, i⟩ := r
  obtain ⟨⟨⟩, ⟨x', y', z'⟩, i'⟩ := f
  unfold FaultRecord.key at h
  obtain ⟨h1, hi⟩ := mul_add_inj i.isLt i'.isLt h
  obtain ⟨h2, hx⟩ := mul_add_inj x.isLt x'.isLt h1
  obtain ⟨h3, hy⟩ := mul_add_inj y.isLt y'.isLt h2
  obtain ⟨_, hz⟩ := mul_add_inj z.isLt z'.isLt h3
  rw [BitVec.eq_of_toNat_eq hi, BitVec.eq_of_toNat_eq hx, BitVec.eq_of_toNat_eq hy,
    BitVec.eq_of_toNat_eq hz]

/-- The fault set after a record is added holds that record and the old ones (R87). -/
theorem mem_insertFault {r f : FaultRecord} {fs : List FaultRecord} :
    f ∈ insertFault r fs ↔ f = r ∨ f ∈ fs := by
  induction fs with
  | nil => simp [insertFault]
  | cons g rest ih =>
    simp only [insertFault]
    split
    · simp only [List.mem_cons]
    · split
      case isTrue heq =>
        obtain rfl := FaultRecord.key_inj heq
        simp only [List.mem_cons, or_self_left]
      case isFalse => simp only [List.mem_cons, ih, or_left_comm]

/-- Adding a record keeps the fault set's canonical form. -/
theorem pairwise_insertFault {fs : List FaultRecord} (r : FaultRecord)
    (h : fs.Pairwise (fun a b => a.key < b.key)) :
    (insertFault r fs).Pairwise (fun a b => a.key < b.key) := by
  induction fs with
  | nil => simp [insertFault]
  | cons g rest ih =>
    obtain ⟨hg, hr⟩ := List.pairwise_cons.mp h
    simp only [insertFault]
    split
    case isTrue hlt =>
      refine List.pairwise_cons.mpr ⟨fun c hc => ?_, h⟩
      rcases List.mem_cons.mp hc with rfl | hc
      · exact hlt
      · exact hlt.trans (hg c hc)
    case isFalse hge =>
      split
      case isTrue => exact h
      case isFalse hne =>
        refine List.pairwise_cons.mpr ⟨fun c hc => ?_, ih hr⟩
        rcases mem_insertFault.mp hc with rfl | hc
        · omega
        · exact hg c hc

end Sys2Proof.Machine
end

