-- ==== Sys2Proof/Laws/Ops.lean ====
section
/-! SUPPORT. What each shared operation, and each operation of the block, can do: one lemma each, cited instead of unfolding. -/

namespace Sys2Proof.Machine

theorem inBounds_iff {p : Params} {x y : Word} :
    inBounds p x y = true ↔ x.toNat < p.width ∧ y.toNat < p.height := by
  simp [inBounds]

theorem not_inBounds_iff {p : Params} {x y : Word} :
    inBounds p x y = false ↔ ¬ (x.toNat < p.width ∧ y.toNat < p.height) := by
  rw [← inBounds_iff, Bool.not_eq_true]

/-- The legality of the parameters, in the words of R6. -/
theorem legal_iff {p : Params} :
    legal p = true ↔ 1 ≤ p.width ∧ 1 ≤ p.height ∧ p.width * p.height ≤ 2 ^ 32 ∧
      p.width ≤ 2 ^ 32 ∧ p.height ≤ 2 ^ 32 ∧ p.bValue ≤ 255 ∧ p.aValue ≤ 255 := by
  simp only [legal, Bool.and_eq_true, decide_eq_true_eq, and_assoc]
  rfl

theorem whenLegal_of_legal {s : State} (h : legal s.params = true) (k : Answer) :
    whenLegal s k = k := by simp [whenLegal, h]

theorem whenLegal_eq_next {s t : State} {k : Answer} :
    whenLegal s k = .next t ↔ legal s.params = true ∧ k = .next t := by
  unfold whenLegal; split <;> simp_all

theorem whenLegal_ne_fault {s : State} {k : Answer} {f : Fault} (h : k ≠ .fault f) :
    whenLegal s k ≠ .fault f := by
  unfold whenLegal; split
  · exact h
  · simp

/-- An in-bounds index is inside the image (R24, R57). -/
theorem index_lt_image {p : Params} {x y : Nat} (hx : x < p.width) (hy : y < p.height) :
    y * p.width + x < p.width * p.height := by
  have : (y + 1) * p.width ≤ p.height * p.width := Nat.mul_le_mul_right _ hy
  rw [Nat.add_mul, one_mul] at this
  rw [Nat.mul_comm p.width]
  omega

/-- The index port holds the exact index of an in-bounds pair (R57, R6). -/
theorem toNat_linearIndex {p : Params} {x y : Word} (hp : legal p = true)
    (h : inBounds p x y = true) :
    (linearIndex p x y).toNat = y.toNat * p.width + x.toNat := by
  obtain ⟨hx, hy⟩ := inBounds_iff.mp h
  have h1 := index_lt_image hx hy
  have h2 := (legal_iff.mp hp).2.2.1
  rw [linearIndex, BitVec.toNat_ofNat, Nat.mod_eq_of_lt (h1.trans_le h2)]

/-- The pixel of an index (R24, R59). -/
theorem pixel_of_index {w x y : Nat} (hx : x < w) :
    (y * w + x) % w = x ∧ (y * w + x) / w = y := by
  have hw : 0 < w := by omega
  rw [Nat.mul_comm, Nat.mul_add_mod, Nat.mod_eq_of_lt hx, Nat.mul_add_div hw,
    Nat.div_eq_of_lt hx]
  simp

/-- The channel of an in-domain pair is exact and at most 254 (R61, R63). -/
theorem toNat_scaleValue {c d : Nat} (h : c < d) :
    (scaleValue c d).toNat = c * 255 / d ∧ c * 255 / d ≤ 254 := by
  have h1 : c * 255 / d ≤ 254 := by
    rw [Nat.div_le_iff_le_mul_add_pred (by omega)]; omega
  refine ⟨?_, h1⟩
  simp only [scaleValue, Config.scaleMax, BitVec.toNat_ofNat]
  exact Nat.mod_eq_of_lt (by omega)

/-- The packed word is the sum of its lanes: no carry crosses one (R67, R68). -/
theorem toNat_packWord (r g b a : Channel) :
    (packWord r g b a).toNat =
      a.toNat * 2 ^ 24 + b.toNat * 2 ^ 16 + g.toNat * 2 ^ 8 + r.toNat := by
  have h : packWord r g b a = (a ++ b ++ g ++ r : BitVec (8 + 8 + 8 + 8)) := by
    apply BitVec.eq_of_toNat_eq
    have ha := a.isLt; have hb := b.isLt; have hg := g.isLt; have hr := r.isLt
    simp only [packWord, toNat_append_eq, BitVec.toNat_or, BitVec.toNat_shiftLeft,
      BitVec.toNat_setWidth, Nat.shiftLeft_eq]
    rw [Nat.mod_eq_of_lt (show a.toNat < 2 ^ 32 by omega),
      Nat.mod_eq_of_lt (show b.toNat < 2 ^ 32 by omega),
      Nat.mod_eq_of_lt (show g.toNat < 2 ^ 32 by omega),
      Nat.mod_eq_of_lt (show r.toNat < 2 ^ 32 by omega),
      Nat.mod_eq_of_lt (show a.toNat * 2 ^ 24 < 2 ^ 32 by omega),
      Nat.mod_eq_of_lt (show b.toNat * 2 ^ 16 < 2 ^ 32 by omega),
      Nat.mod_eq_of_lt (show g.toNat * 2 ^ 8 < 2 ^ 32 by omega)]
    have e1 : a.toNat * 2 ^ 24 ||| b.toNat * 2 ^ 16 = a.toNat * 2 ^ 24 + b.toNat * 2 ^ 16 := by
      rw [← Nat.shiftLeft_eq a.toNat, Nat.shiftLeft_add_eq_or_of_lt (by omega)]
    have e2 : a.toNat * 2 ^ 24 + b.toNat * 2 ^ 16 ||| g.toNat * 2 ^ 8 =
        a.toNat * 2 ^ 24 + b.toNat * 2 ^ 16 + g.toNat * 2 ^ 8 := by
      rw [show a.toNat * 2 ^ 24 + b.toNat * 2 ^ 16 = (a.toNat * 2 ^ 8 + b.toNat) <<< 16 by
        rw [Nat.shiftLeft_eq]; omega, Nat.shiftLeft_add_eq_or_of_lt (by omega)]
    have e3 : a.toNat * 2 ^ 24 + b.toNat * 2 ^ 16 + g.toNat * 2 ^ 8 ||| r.toNat =
        a.toNat * 2 ^ 24 + b.toNat * 2 ^ 16 + g.toNat * 2 ^ 8 + r.toNat := by
      rw [show a.toNat * 2 ^ 24 + b.toNat * 2 ^ 16 + g.toNat * 2 ^ 8 =
        (a.toNat * 2 ^ 16 + b.toNat * 2 ^ 8 + g.toNat) <<< 8 by
        rw [Nat.shiftLeft_eq]; omega, Nat.shiftLeft_add_eq_or_of_lt (by omega)]
    rw [e1, e2, e3]
    omega
  have h' := congrArg BitVec.toNat h
  rw [h']
  simp only [toNat_append_eq]
  omega

/-- Each lane of a packed word is its channel (R68). -/
theorem lane_packWord (r g b a : Channel) :
    lane (packWord r g b a) 0 = r ∧ lane (packWord r g b a) 1 = g ∧
      lane (packWord r g b a) 2 = b ∧ lane (packWord r g b a) 3 = a := by
  have := r.isLt; have := g.isLt; have := b.isLt; have := a.isLt
  refine ⟨?_, ?_, ?_, ?_⟩ <;> apply BitVec.eq_of_toNat_eq <;>
    simp only [lane, BitVec.extractLsb'_toNat, Nat.shiftRight_eq_div_pow, toNat_packWord] <;> omega

/-- A channel, zero-extended to an operand field, is read back (R47). -/
@[simp] theorem channelOf_setWidth (r : Channel) : channelOf (r.setWidth 32) = r := by
  apply BitVec.eq_of_toNat_eq; have := r.isLt; simp [channelOf]; omega

@[simp] theorem isChannel_setWidth (r : Channel) : isChannel (r.setWidth 32) = true := by
  rw [isChannel_iff]; have := r.isLt; simp; omega

/-- The pixel word of an in-bounds pair, as the sum of its lanes (R79). -/
theorem toNat_pixelWord {p : Params} (hp : legal p = true) {x y : Nat} (hx : x < p.width)
    (hy : y < p.height) :
    (pixelWord p x y).toNat = p.aValue * 2 ^ 24 + p.bValue * 2 ^ 16 +
      (y * 255 / p.height) * 2 ^ 8 + x * 255 / p.width := by
  obtain ⟨-, -, -, -, -, hB, hA⟩ := legal_iff.1 hp
  rw [pixelWord, toNat_packWord, (toNat_scaleValue hx).1, (toNat_scaleValue hy).1]
  simp only [BitVec.toNat_ofNat]
  rw [Nat.mod_eq_of_lt (by omega : p.bValue < 2 ^ 8), Nat.mod_eq_of_lt (by omega : p.aValue < 2 ^ 8)]

/-- What MAP_INDEX can do (R57). -/
theorem execMapIndex_eq_next {x y : Word} {s t : State} :
    execMapIndex x y s = .next t ↔ legal s.params = true ∧
      ((inBounds s.params x y = true ∧ t = s.answer { Outputs.idle with
          resInBounds := some true, resIdx := some (linearIndex s.params x y) }) ∨
        (inBounds s.params x y = false ∧
          t = s.answer { Outputs.idle with resInBounds := some false })) := by
  rw [execMapIndex, whenLegal_eq_next]
  cases h : inBounds s.params x y <;> simp [@eq_comm _ _ t]

/-- What SCALE can do (R61). -/
theorem execScale_eq_next {c d : Word} {s t : State} :
    execScale c d s = .next t ↔ legal s.params = true ∧ c.toNat < d.toNat ∧
      t = s.answer { Outputs.idle with resQ := some (scaleValue c.toNat d.toNat) } := by
  rw [execScale, whenLegal_eq_next]
  by_cases h : c.toNat < d.toNat <;> simp [h, @eq_comm _ _ t]

/-- What PACK can do (R67). -/
theorem execPack_eq_next {r g b a : Word} {s t : State} :
    execPack r g b a s = .next t ↔ legal s.params = true ∧
      (isChannel r && isChannel g && isChannel b && isChannel a) = true ∧
      t = s.answer { Outputs.idle with
        resWord := some (packWord (channelOf r) (channelOf g) (channelOf b) (channelOf a)) } := by
  rw [execPack, whenLegal_eq_next]
  cases h : isChannel r && isChannel g && isChannel b && isChannel a <;> simp [@eq_comm _ _ t]

/-- What INVOKE can do (R71): nothing, one write, or one recorded fault. -/
theorem execInvoke_eq_next {x y z : Word} {s t : State} :
    execInvoke x y z s = .next t ↔ legal s.params = true ∧
      ((inBounds s.params x y = false ∧ t = s.answer Outputs.idle) ∨
        (inBounds s.params x y = true ∧ ∃ b, s.buf = some b ∧
          (((linearIndex s.params x y).toNat < b.len ∧
              t = s.memWrite b (linearIndex s.params x y)
                (pixelWord s.params x.toNat y.toNat)) ∨
            (b.len ≤ (linearIndex s.params x y).toNat ∧
              t = s.raiseFault .bufferTooSmall { x := x, y := y, z := z }
                (linearIndex s.params x y))))) := by
  rw [execInvoke, whenLegal_eq_next]
  cases h : inBounds s.params x y
  · simp [@eq_comm _ _ t]
  · cases hb : s.buf with
    | none => simp
    | some b =>
      by_cases hl : (linearIndex s.params x y).toNat < b.len
      · simp [hl, @eq_comm _ _ t, not_le.mpr hl]
      · simp [hl, @eq_comm _ _ t, not_lt.mp hl]

/-- No operation changes the parameters, the launch or the host's side of the state (R5, R12). -/
theorem exec_frame {i : Instr} {s t : State} (h : exec i s = .next t) :
    t.params = s.params ∧ t.pending = s.pending ∧ t.launch = s.launch ∧
      t.readData = s.readData ∧ t.inputs = s.inputs ∧ t.draws = s.draws := by
  cases i with
  | invoke x y z d =>
    obtain ⟨-, ⟨-, rfl⟩ | ⟨-, b, -, ⟨-, rfl⟩ | ⟨-, rfl⟩⟩⟩ := execInvoke_eq_next.mp h <;> simp
  | mapIndex x y c d =>
    obtain ⟨-, ⟨-, rfl⟩ | ⟨-, rfl⟩⟩ := execMapIndex_eq_next.mp h <;> simp
  | scale c d e f => obtain ⟨-, -, rfl⟩ := execScale_eq_next.mp h; simp
  | pack r g b a => obtain ⟨-, -, rfl⟩ := execPack_eq_next.mp h; simp

/-- MAP_INDEX, SCALE and PACK touch neither the buffer nor the fault set (R23). -/
theorem exec_subunit_frame {i : Instr} {s t : State} (hi : ∀ x y z d, i ≠ .invoke x y z d)
    (h : exec i s = .next t) : t.buf = s.buf ∧ t.faults = s.faults := by
  cases i with
  | invoke x y z d => exact absurd rfl (hi x y z d)
  | mapIndex x y c d =>
    obtain ⟨-, ⟨-, rfl⟩ | ⟨-, rfl⟩⟩ := execMapIndex_eq_next.mp h <;> simp
  | scale c d e f => obtain ⟨-, -, rfl⟩ := execScale_eq_next.mp h; simp
  | pack r g b a => obtain ⟨-, -, rfl⟩ := execPack_eq_next.mp h; simp

/-- With legal parameters and a bound buffer, INVOKE answers a next state, and this is all it does to
the words and to the fault set (R71, R86). -/
theorem exec_invoke_effect {s : State} {b : PixelBuffer} (hp : legal s.params = true)
    (hb : s.buf = some b) (x y z d : Word) :
    ∃ t b', exec (.invoke x y z d) s = .next t ∧ t.buf = some b' ∧ b'.len = b.len ∧ b'.id = b.id ∧
      (b.words.wf b.len → b'.words.wf b'.len) ∧
      (s.faults.Pairwise (fun f g => f.key < g.key) →
        t.faults.Pairwise (fun f g => f.key < g.key)) ∧
      (∀ j, b'.word j =
        if inBounds s.params x y = true ∧ (linearIndex s.params x y).toNat < b.len ∧
            j = (linearIndex s.params x y).toNat then pixelWord s.params x.toNat y.toNat
        else b.word j) ∧
      (∀ r, r ∈ t.faults ↔ r ∈ s.faults ∨
        (inBounds s.params x y = true ∧ b.len ≤ (linearIndex s.params x y).toNat ∧
          r = { reason := .bufferTooSmall, coord := { x := x, y := y, z := z },
                info := linearIndex s.params x y })) := by
  cases hib : inBounds s.params x y
  · exact ⟨_, b, execInvoke_eq_next.2 ⟨hp, .inl ⟨hib, rfl⟩⟩, hb, rfl, rfl, fun h => h, fun h => h,
      by simp, by simp⟩
  · by_cases hlt : (linearIndex s.params x y).toNat < b.len
    · refine ⟨_, _, execInvoke_eq_next.2 ⟨hp, .inr ⟨hib, b, hb, .inl ⟨hlt, rfl⟩⟩⟩, rfl, by simp,
        by simp, fun h => PixelBuffer.wf_write h _ _, fun h => h, fun j => ?_, fun r => ?_⟩
      · by_cases hj : j = (linearIndex s.params x y).toNat
        · subst hj; rw [if_pos ⟨rfl, hlt, rfl⟩]; exact PixelBuffer.word_write_same hlt _
        · rw [if_neg (fun h => hj h.2.2)]; exact PixelBuffer.word_write_of_ne hj _
      · have : ¬ b.len ≤ (linearIndex s.params x y).toNat := by omega
        simp only [this, false_and, and_false, or_false]; rfl
    · have hge : b.len ≤ (linearIndex s.params x y).toNat := by omega
      refine ⟨_, b, execInvoke_eq_next.2 ⟨hp, .inr ⟨hib, b, hb, .inr ⟨hge, rfl⟩⟩⟩, hb, rfl, rfl,
        fun h => h, pairwise_insertFault _, fun j => ?_, fun r => ?_⟩
      · rw [if_neg (fun h => hlt h.2.1)]
      · simp only [State.raiseFault_faults, mem_insertFault]
        rw [or_comm]; simp only [hge, true_and]

/-- No operation ends in a fault of the run: a fault is recorded (R87). -/
theorem exec_ne_fault (i : Instr) (s : State) (f : Fault) : exec i s ≠ .fault f := by
  cases i with
  | invoke x y z d =>
    refine whenLegal_ne_fault ?_
    dsimp only
    repeat' split
    all_goals simp
  | mapIndex x y c d => refine whenLegal_ne_fault ?_; split <;> simp
  | scale c d e f => refine whenLegal_ne_fault ?_; split <;> simp
  | pack r g b a => refine whenLegal_ne_fault ?_; split <;> simp

end Sys2Proof.Machine
end

