-- ==== Sys2Proof/Laws/Launch.lean ====
section
/-! SUPPORT. The grid of a dispatch, and what one step can do. -/

namespace Sys2Proof.Machine

/-- The triples of a grid are those below its extents (R55, R80). -/
theorem mem_gridCoords {gx gy gz : Nat} {c : Coord} :
    c ∈ gridCoords gx gy gz ↔ c.x.toNat < gx ∧ c.y.toNat < gy ∧ c.z.toNat < gz := by
  have hx := c.x.isLt; have hy := c.y.isLt; have hz := c.z.isLt
  simp only [gridCoords, List.mem_flatMap, List.mem_map, List.mem_range, Config.coordLimit,
    Nat.lt_min]
  constructor
  · rintro ⟨z, ⟨h1, h1'⟩, y, ⟨h2, h2'⟩, x, ⟨h3, h3'⟩, rfl⟩
    simp only [Coord.ofNat, BitVec.toNat_ofNat, Nat.mod_eq_of_lt h1', Nat.mod_eq_of_lt h2',
      Nat.mod_eq_of_lt h3']
    exact ⟨h3, h2, h1⟩
  · rintro ⟨h1, h2, h3⟩
    exact ⟨_, ⟨h3, hz⟩, _, ⟨h2, hy⟩, _, ⟨h1, hx⟩, by simp [Coord.ofNat]⟩

/-- How many triples a grid has, where its extents fit the coordinate width. -/
theorem length_gridCoords {gx gy gz : Nat} (hx : gx ≤ 2 ^ 32) (hy : gy ≤ 2 ^ 32)
    (hz : gz ≤ 2 ^ 32) : (gridCoords gx gy gz).length = gx * gy * gz := by
  simp only [gridCoords, Config.coordLimit, Nat.min_eq_left hx, Nat.min_eq_left hy,
    Nat.min_eq_left hz, List.length_flatMap, List.length_map, List.length_range,
    List.map_const', List.sum_replicate]
  simp [Nat.mul_comm, Nat.mul_left_comm]

/-- `Coord.ofNat` tells triples below the coordinate width apart. -/
theorem Coord.ofNat_inj {x y z x' y' z' : Nat} (h : Coord.ofNat x y z = Coord.ofNat x' y' z')
    (hx : x < 2 ^ 32) (hy : y < 2 ^ 32) (hz : z < 2 ^ 32)
    (hx' : x' < 2 ^ 32) (hy' : y' < 2 ^ 32) (hz' : z' < 2 ^ 32) : x = x' ∧ y = y' ∧ z = z' := by
  simp only [Coord.ofNat, Coord.mk.injEq] at h
  obtain ⟨h1, h2, h3⟩ := h
  have h1 := congrArg BitVec.toNat h1
  have h2 := congrArg BitVec.toNat h2
  have h3 := congrArg BitVec.toNat h3
  simp only [BitVec.toNat_ofNat] at h1 h2 h3
  omega

/-- No triple stands twice in a grid (R21). -/
theorem nodup_gridCoords (gx gy gz : Nat) : (gridCoords gx gy gz).Nodup := by
  have lt_of {n g : Nat} (h : n ∈ List.range (min g Config.coordLimit)) : n < 2 ^ 32 := by
    rw [List.mem_range] at h; exact h.trans_le (Nat.min_le_right ..)
  refine List.nodup_flatMap.mpr ⟨fun z hz => List.nodup_flatMap.mpr ⟨fun y hy => ?_, ?_⟩, ?_⟩
  · exact List.Nodup.map_on (fun x hx x' hx' h =>
      (Coord.ofNat_inj h (lt_of hx) (lt_of hy) (lt_of hz) (lt_of hx') (lt_of hy) (lt_of hz)).1)
      List.nodup_range
  · refine List.Pairwise.imp_of_mem ?_ List.nodup_range
    intro y y' hy hy' hne c hc hc'
    obtain ⟨x, hx, rfl⟩ := List.mem_map.mp hc
    obtain ⟨x', hx', h⟩ := List.mem_map.mp hc'
    exact hne (Coord.ofNat_inj h (lt_of hx') (lt_of hy') (lt_of hz) (lt_of hx) (lt_of hy)
      (lt_of hz)).2.1.symm
  · refine List.Pairwise.imp_of_mem ?_ List.nodup_range
    intro z z' hz hz' hne c hc hc'
    obtain ⟨y, hy, hc⟩ := List.mem_flatMap.mp hc
    obtain ⟨x, hx, rfl⟩ := List.mem_map.mp hc
    obtain ⟨y', hy', hc'⟩ := List.mem_flatMap.mp hc'
    obtain ⟨x', hx', h⟩ := List.mem_map.mp hc'
    exact hne (Coord.ofNat_inj h (lt_of hx') (lt_of hy') (lt_of hz') (lt_of hx) (lt_of hy)
      (lt_of hz)).2.2.symm

/-- The launch is a next state exactly where R102's premises hold. -/
theorem launchGrid_eq_next {gx gy gz : Nat} {s t : State} :
    launchGrid gx gy gz s = .next t ↔ legal s.params = true ∧ ∃ b, s.buf = some b ∧
      t = { s with pending := gridCoords gx gy gz, faults := [],
                   launch := some { gx := gx, gy := gy, gz := gz, buf0 := b } } := by
  rw [launchGrid, whenLegal_eq_next]
  cases h : s.buf <;> simp [@eq_comm _ _ t]

/-- Where an invocation is pending, the choice `k` always names one. -/
theorem runPending_of_pending {s : State} (h : s.pending ≠ []) (k : Nat) :
    ∃ (c : Coord) (hk : k % s.pending.length < s.pending.length),
      s.pending[k % s.pending.length] = c ∧ c ∈ s.pending ∧
      runPending k s =
        exec c.instr { s with pending := s.pending.eraseIdx (k % s.pending.length) } := by
  have hk : k % s.pending.length < s.pending.length :=
    Nat.mod_lt _ (List.length_pos_of_ne_nil h)
  exact ⟨_, hk, rfl, List.getElem_mem hk, by simp [runPending, hk]⟩

theorem runPending_of_complete {s : State} (h : s.pending = []) (k : Nat) :
    runPending k s = .next s := by simp [runPending, h]

/-- What one step can do: nothing while the block waits, one invocation's step, or one host move. -/
theorem step_cases (s : State) :
    (s.pending = [] ∧ s.inputs = [] ∧ step s = .next s) ∨
    (s.pending ≠ [] ∧ (s.inputs = [] ∨ ∃ m rest, s.inputs = m :: rest ∧ m.waits = true) ∧
      step s = runPending (Config.pick s.draws) { s with draws := s.draws + 1 }) ∨
    (∃ m rest, s.inputs = m :: rest ∧ (s.pending = [] ∨ m.waits = false) ∧
      step s = serve m { s with inputs := rest }) := by
  have hadv (h : s.pending ≠ []) :
      advance s = runPending (Config.pick s.draws) { s with draws := s.draws + 1 } := by
    unfold advance; split
    · exact absurd ‹_› h
    · rfl
  obtain hi | ⟨m, rest, hi⟩ : s.inputs = [] ∨ ∃ m rest, s.inputs = m :: rest := by
    cases s.inputs <;> simp
  · by_cases hp : s.pending = []
    · exact .inl ⟨hp, hi, by simp [step, nextEvent, hi, advance, hp]⟩
    · have h : step s = advance s := by simp [step, nextEvent, hi]
      exact .inr (.inl ⟨hp, .inl hi, h.trans (hadv hp)⟩)
  · by_cases hp : s.pending = [] ∨ m.waits = false
    · refine .inr (.inr ⟨m, rest, hi, hp, ?_⟩)
      rcases hp with hp | hw
      · simp [step, nextEvent, hi, hp]
      · simp [step, nextEvent, hi, hw]
    · obtain ⟨hp, hw⟩ := not_or.mp hp
      have hw : m.waits = true := by simpa using hw
      have h : step s = advance s := by simp [step, nextEvent, hi, hw, hp]
      exact .inr (.inl ⟨hp, .inr ⟨m, rest, hi, hw⟩, h.trans (hadv hp)⟩)

/-- The first step of a run. -/
theorem run_succ {s t : State} (n : Nat) (h : step s = .next t) :
    Host.Core.run Sys2Proof.core (n + 1) s = Host.Core.run Sys2Proof.core n t := by
  have h' : Sys2Proof.core.step s = .next t := h
  simp only [Host.Core.run, h']

/-- A bound buffer is in canonical form. -/
theorem bindBuffer_wf (init : Memory) {b : PixelBuffer} (h : b.words.wf b.len) :
    (init.foldl (fun b c => b.write c.1 c.2) b).words.wf
      (init.foldl (fun b c => b.write c.1 c.2) b).len :=
  (PixelBuffer.wf_foldl (fun (b : PixelBuffer) (c : Nat × Word) => b.write c.1 c.2) (by simp)
    (by simp) (fun _ c h => PixelBuffer.wf_write h c.1 c.2) init b).2.2 h

/-- The buffer a reset in flight leaves keeps the length, number and canonical form. -/
theorem abortedBuffer_wf (p : Params) (l : Launch) (d : Nat) :
    (abortedBuffer p l d).len = l.buf0.len ∧ (abortedBuffer p l d).id = l.buf0.id ∧
      (l.buf0.words.wf l.buf0.len → (abortedBuffer p l d).words.wf (abortedBuffer p l d).len) := by
  refine PixelBuffer.wf_foldl _ ?_ ?_ ?_ _ _
  · intro b c; dsimp only; split <;> simp
  · intro b c; dsimp only; split <;> simp
  · intro b c h; dsimp only; split
    · exact PixelBuffer.wf_write h _ _
    · exact h

end Sys2Proof.Machine
end

