-- ==== Sys2Proof/Laws/PerInstr.lean ====
section
/-! SUPPORT. For every instruction: its encoding fits its row of spec/opcode_table.json, bit for bit under the row's mask. -/

namespace Sys2Proof.Laws.TableRow

/-- The encoding of a well-formed instruction agrees with its row's `match` under its `mask`. -/
def Statement (i : Instr) : Prop :=
  i.wellFormed = true → encode i &&& i.tableMask = i.tableMatch

/-- Masking a request masks its fields. -/
theorem and_ofFields (op op' : BitVec 2) (a b c d a' b' c' d' : Word) :
    Req.ofFields op a b c d &&& Req.ofFields op' a' b' c' d' =
      Req.ofFields (op &&& op') (a &&& a') (b &&& b') (c &&& c') (d &&& d') := by
  have h : ((d ++ c ++ b ++ a ++ op : BitVec (32 + 32 + 32 + 32 + 2)) &&&
      (d' ++ c' ++ b' ++ a' ++ op')) =
      ((d &&& d') ++ (c &&& c') ++ (b &&& b') ++ (a &&& a') ++ (op &&& op')) := by
    simp only [BitVec.and_append]
  exact h

/-- Masking with 3 keeps the operation code. -/
theorem and_three (op : BitVec 2) (a b c d : Word) :
    Req.ofFields op a b c d &&& 0x3 = Req.ofFields op 0 0 0 0 := by
  have h : (0x3 : Req) = Req.ofFields 3 0 0 0 0 := by decide
  rw [h, and_ofFields]
  have h0 (v : Word) : v &&& 0 = 0 := BitVec.and_zero
  have h3 : op &&& 3 = op := by revert op; decide
  rw [h0, h0, h0, h0, h3]

theorem invoke (x y z opd : Word) : Statement (.invoke x y z opd) := by
  intro _; exact and_three 0 x y z opd

theorem mapIndex (x y opc opd : Word) : Statement (.mapIndex x y opc opd) := by
  intro _; exact and_three 1 x y opc opd

theorem scale (c d opc opd : Word) : Statement (.scale c d opc opd) := by
  intro _; exact and_three 2 c d opc opd

/-- Under the mask of the high 24 bits of an operand, a channel leaves nothing. -/
theorem and_high_of_lt {v : Word} (h : v.toNat < 256) : v &&& 0xFFFFFF00 = 0 := by
  apply BitVec.eq_of_getLsbD_eq
  intro i hi
  rw [BitVec.getLsbD_and]
  rcases Nat.lt_or_ge i 8 with h8 | h8
  · have : (0xFFFFFF00 : Word).getLsbD i = false := by
      revert i; decide
    rw [this, Bool.and_false]; exact (BitVec.getLsbD_zero).symm
  · have : v.getLsbD i = false := by
      rw [BitVec.getLsbD]
      exact Nat.testBit_lt_two_pow (lt_of_lt_of_le h (Nat.pow_le_pow_right (by decide) h8 : 2 ^ 8 ≤ 2 ^ i))
    rw [this, Bool.false_and]; exact (BitVec.getLsbD_zero).symm

theorem pack (r g b a : Word) : Statement (.pack r g b a) := by
  intro h
  simp only [Instr.wellFormed, Bool.and_eq_true, decide_eq_true_eq] at h
  obtain ⟨⟨⟨hr, hg⟩, hb⟩, ha⟩ := h
  have hm : (0x3FFFFFC03FFFFFC03FFFFFC03FFFFFC03 : Req) =
      Req.ofFields 3 0xFFFFFF00 0xFFFFFF00 0xFFFFFF00 0xFFFFFF00 := by decide
  rw [Instr.tableMask, hm, encode, and_ofFields, and_high_of_lt hr, and_high_of_lt hg, and_high_of_lt hb,
    and_high_of_lt ha]
  rfl

end Sys2Proof.Laws.TableRow
end

