-- ==== Sys2Proof/Tests/Slice0.lean ====
section
/-! SUPPORT. The model's own tests, their expected values from spec/95_test_vectors.md, and a witness for the hypotheses of each statement. -/

namespace Sys2Proof.Tests

open Sys2Proof Sys2Proof.Machine

/-- The next state of an answer, if it is one. -/
def next? : Answer → Option State
  | .next s => some s
  | _ => none

/-- The refusal of an answer, if it is one. -/
def refusal? : Answer → Option Refusal
  | .refused r => some r
  | _ => none

/-- The image of `w × h` pixels with this hardware's constants, over a buffer of `len` words. -/
def machine (w h len : Nat) (inputs : List HostMove) : State :=
  { State.reset with
    params := { Params.thisHardware with width := w, height := h }
    buf := some { len := len, words := [], id := 0 }
    inputs := inputs }

/-- `machine` with the launch of a grid already made: `pending` are the triples still to run. -/
def flying (w h len : Nat) (pending : List Coord) (inputs : List HostMove) : State :=
  { machine w h len inputs with
    pending := pending
    launch := some { gx := w, gy := h, gz := 1, buf0 := { len := len, words := [], id := 0 } } }

-- ------------------------------------------------------------ ill-formed terms are refused

/-- R52: one ill-formed term for each check of `Instr.wellFormed`. -/
theorem test_wellFormed_refuses_wide_r : (Instr.pack 256 0 0 0).wellFormed = false := by decide
theorem test_wellFormed_refuses_wide_g : (Instr.pack 0 256 0 0).wellFormed = false := by decide
theorem test_wellFormed_refuses_wide_b : (Instr.pack 0 0 0xFFFFFFFF 0).wellFormed = false := by decide
theorem test_wellFormed_refuses_wide_a : (Instr.pack 0 0 0 0x100).wellFormed = false := by decide

/-- R6: one illegal configuration for each condition. -/
theorem test_legal_refuses : (([⟨0, 256, 128, 255⟩, ⟨256, 0, 128, 255⟩, ⟨65537, 65536, 128, 255⟩,
    ⟨2 ^ 32 + 1, 1, 128, 255⟩, ⟨1, 2 ^ 32 + 1, 128, 255⟩, ⟨256, 256, 256, 255⟩,
    ⟨256, 256, 128, 256⟩] : List Params).map legal).all (· == false) = true := by decide

/-- R6: the largest legal image. -/
theorem test_legal_admits_largest : legal ⟨65536, 65536, 255, 255⟩ = true := by decide

-- ------------------------------------------------------------ decoding, from 95 section 2

theorem test_decode_invoke : decode 0x20400000204 = .ok (.invoke 129 129 0 0) := by decide
theorem test_decode_mapIndex : decode 0x32000000191 = .ok (.mapIndex 100 200 0 0) := by decide
theorem test_decode_scale : decode 0x400000004B2 = .ok (.scale 300 256 0 0) := by decide
theorem test_decode_pack : decode 0x3FC00000200000003F8000003FB = .ok (.pack 254 254 128 255) := by
  decide
theorem test_decode_pack_wide : decode 0x400000000000000000000000003 = .error .packOperandWidth := by
  decide

/-- 95 P5's requests, from the encoder. -/
theorem test_encode : encode (.scale 129 256 0 0) = 0x40000000206 ∧
    encode (.pack 128 128 128 255) = 0x3FC000002000000020000000203 := by decide

-- ------------------------------------------------------------ operations, from 95 section 2

/-- 95 section 2.1: `MAP_INDEX 128, 64` gives 16512. -/
theorem test_mapIndex_in_bounds : ((next? (exec (.mapIndex 128 64 0 0) State.reset)).map
    (fun t => (t.out.resInBounds, t.out.resIdx))) = some (some true, some 16512) := by decide

/-- 95 section 2.1: `MAP_INDEX 256, 0` is out of bounds, with no index. -/
theorem test_mapIndex_full_compare : ((next? (exec (.mapIndex 256 0 0 0) State.reset)).map
    (fun t => (t.out.resInBounds, t.out.resIdx))) = some (some false, none) := by decide

/-- 95 section 2.2: the exact 40-bit product. -/
theorem test_scale_large : ((next? (exec (.scale 0xFFFFFFFE 0xFFFFFFFF 0 0) State.reset)).map
    (fun t => t.out.resQ)) = some (some 254) := by decide

/-- 95 section 2.2: `SCALE 9, 10` truncates 229.5. -/
theorem test_scale_truncates : ((next? (exec (.scale 9 10 0 0) State.reset)).map
    (fun t => t.out.resQ)) = some (some 229) := by decide

/-- 95 section 2.3: the lane order, r in the low byte. -/
theorem test_pack_lanes : ((next? (exec (.pack 0x12 0x34 0x56 0x78) State.reset)).map
    (fun t => t.out.resWord)) = some (some 0x78563412) := by decide

/-- 95 section 2.3: an over-wide channel is refused. -/
theorem test_pack_wide : refusal? (exec (.pack 256 0 0 0) State.reset) = some .packOperandWidth := by
  decide

/-- 95 section 2.4: `INVOKE 100, 200, 7` writes `0xFF80C763` at word 51300. -/
theorem test_invoke_writes : ((next? (exec (.invoke 100 200 7 0) State.reset)).map
    (fun t => (t.buf.map PixelBuffer.words, t.faults))) =
      some (some [(51300, 0xFF80C763)], []) := by decide

/-- 95 section 2.4: `INVOKE 0, 1, 0` with `BUF_LEN = 256` faults at index 256 and writes nothing. -/
theorem test_invoke_faults : ((next? (exec (.invoke 0 1 0 0) (machine 256 256 256 []))).map
    (fun t => (t.buf.map PixelBuffer.words, t.faults))) =
      some (some [], [⟨.bufferTooSmall, ⟨0, 1, 0⟩, 256⟩]) := by decide

/-- 95 P6, another legal width: the last pixel of a 10 by 10 image. -/
theorem test_invoke_ten : ((next? (exec (.invoke 9 9 0 0) (machine 10 10 100 []))).map
    (fun t => t.buf.map PixelBuffer.words)) = some (some [(99, 0xFF80E5E5)]) := by decide

/-- R55: the grid of `DISPATCH 2, 1, 2`. -/
theorem test_gridCoords : gridCoords 2 1 2 = [⟨0, 0, 0⟩, ⟨1, 0, 0⟩, ⟨0, 0, 1⟩, ⟨1, 0, 1⟩] := by decide

/-- R28, R29: byte 1 of word 1 with `BUF_BASE = 8`, and no byte view with `BUF_BASE = 1`. -/
theorem test_byteAt :
    let b : PixelBuffer := { len := 2, words := [(1, 0xFF8000FE)], id := 0 }
    b.byteAt .littleEndian 8 13 = some 0x00 ∧ b.byteAt .bigEndian 8 13 = some 0x80 ∧
      b.byteAt .littleEndian 8 16 = none ∧ b.byteAt .littleEndian 1 6 = none := by decide

/-- R28: the bytes of `0xFF8000FE` in the two orders. -/
theorem test_byte_orders :
    ([0, 1, 2, 3].map (byteOfWord .littleEndian 0xFF8000FE) = [0xFE, 0x00, 0x80, 0xFF]) ∧
      ([0, 1, 2, 3].map (byteOfWord .bigEndian 0xFF8000FE) = [0xFF, 0x80, 0x00, 0xFE]) := by decide

/-- R60: the realisation on 95 section 2.1's `MAP_INDEX 100, 200`, and on a coordinate of `0x100`. -/
theorem test_realisation : linearIndex256 100 200 = 0xC864 ∧ inBounds256 0x100 0 = false ∧
    inBounds256 255 255 = true := by decide

/-- R96, R24: tiles and pixels. -/
theorem test_tile_and_pixel : tileOf 255 8 = (31, 1) ∧
    pixelOf Params.thisHardware 51300 = (100, 200) := by decide

/-- R88 and R86: the codes. -/
theorem test_codes : [Refusal.parameterIllegal, .noBufferBound, .scaleOutOfDomain,
    .packOperandWidth].map Refusal.code = [some 1, some 2, some 3, some 4] ∧
    Fault.code .bufferTooSmall = 1 := by decide

/-- R54: a listing's result is no part of the request. -/
theorem test_assemble_pack : assemble ['P', 'A', 'C', 'K', ' ', '0', ',', '0', ',', '1', '2', '8',
    ',', '2', '5', '5', '-', '>', '1'] = some (.request 0x3FC000002000000000000000003) := by decide

/-- The reset state's memory is in its canonical form. -/
theorem test_reset_memory_wf : ∀ b, State.reset.buf = some b → b.words.wf b.len := by
  intro b h; cases h; exact Memory.wf_nil _

-- ------------------------------------------------------------ witnesses

theorem witness_DecoderIsTotal : ∃ q0 q1 q2 q3 q4 : Req,
    q0.extractLsb' 0 2 = 0 ∧ q1.extractLsb' 0 2 = 1 ∧ q2.extractLsb' 0 2 = 2 ∧
    (q3.extractLsb' 0 2 = 3 ∧ q3.extractLsb' 10 24 = 0 ∧ q3.extractLsb' 42 24 = 0 ∧
      q3.extractLsb' 74 24 = 0 ∧ q3.extractLsb' 106 24 = 0) ∧
    (q4.extractLsb' 0 2 = 3 ∧ ¬ (q4.extractLsb' 10 24 = 0 ∧ q4.extractLsb' 42 24 = 0 ∧
      q4.extractLsb' 74 24 = 0 ∧ q4.extractLsb' 106 24 = 0)) :=
  ⟨0x3FC, 0x3FC000003FD, 0x400000003FE, 0x3FC000003FC000003FC000003FF, 0x403, by decide⟩

theorem witness_DecodeEncodeRoundTrip : (Instr.pack 255 255 255 255).wellFormed = true ∧
    (Instr.invoke 0xFFFFFFFF 0 7 1).wellFormed = true := by decide

theorem witness_EncodeDecodeRoundTrip : decode 0x3FC000003FC = .ok (.invoke 255 255 0 0) := by decide

theorem witness_StepRunsDecodedRequest :
    let s := machine 256 256 65536 [.request 0x3FC]
    s.pending = [] ∧ s.inputs = .request 0x3FC :: [] ∧
      decode 0x3FC = .ok (.invoke 255 0 0 0) := by decide

theorem witness_StepRefusesInvalidRequest :
    let s := machine 256 256 65536 [.request 0x403]
    s.pending = [] ∧ s.inputs = .request 0x403 :: [] ∧
      decode 0x403 = .error .packOperandWidth := by decide

theorem witness_StepRunsTableWord : decodeTableWord 8 0x1 = some (.mapIndex 0 0 0 0) ∧
    decodeTableWord 136 0x3 = some (.pack 0 0 0 0) := by decide

/-- The step itself runs a table word right after reset. -/
theorem test_step_runs_table_word :
    ((next? (step (State.reset.withFetchWord 136 0x1E000000158000000D00000004B))).map
      (fun t => t.out.resWord)) = some (some 0x78563412) := by decide

theorem witness_StepRunsPendingInvocation :
    (let s := flying 2 2 4 [⟨0, 0, 0⟩, ⟨1, 0, 0⟩] [.pick 3]
     s.inputs = .pick 3 :: [] ∧ s.pending[3 % s.pending.length]? = some ⟨1, 0, 0⟩) ∧
    (let s := flying 2 2 4 [⟨1, 1, 0⟩] [.await]
     (s.inputs = [] ∨ ∃ m rest, s.inputs = m :: rest ∧ m.waits = true) ∧
       s.pending[Config.pick s.draws % s.pending.length]? = some ⟨1, 1, 0⟩) :=
  ⟨by decide, .inr ⟨.await, [], rfl, rfl⟩, by
    show ([⟨1, 1, 0⟩] : List Coord)[Config.pick 1 % 1]? = _
    rw [Nat.mod_one]; rfl⟩

theorem witness_IdleStepChangesNothing : State.reset.pending = [] ∧ State.reset.inputs = [] := by
  decide

theorem witness_StepKeepsParameters : ∃ t, step (machine 2 2 4 [.dispatch 2 2 1]) = .next t :=
  ⟨_, rfl⟩

theorem witness_MapIndexResult : legal State.reset.params = true ∧
    ((255 : Word).toNat < State.reset.params.width ∧ (255 : Word).toNat < State.reset.params.height) ∧
    ¬ ((256 : Word).toNat < State.reset.params.width ∧
      (0 : Word).toNat < State.reset.params.height) := by decide

theorem witness_IndexIsBijection : legal State.reset.params = true ∧
    ((255 : Word).toNat < State.reset.params.width ∧ (0 : Word).toNat < State.reset.params.height ∧
      ((255 : Word), (0 : Word)) ≠ (0, 1)) ∧
    (∃ t, exec (.mapIndex 255 0 0 0) State.reset = .next t ∧ t.out.resIdx = some 255) ∧
    (∃ t, exec (.mapIndex 0 1 0 0) State.reset = .next t ∧ t.out.resIdx = some 256) ∧
    65535 < State.reset.params.width * State.reset.params.height :=
  ⟨by decide, by decide, ⟨_, rfl, by decide⟩, ⟨_, rfl, by decide⟩, by decide⟩

theorem witness_IndexRealisation256 : State.reset.params = Params.thisHardware := rfl

theorem witness_ScaleResult : legal State.reset.params = true ∧
    (255 : Word).toNat < (256 : Word).toNat ∧ ¬ (256 : Word).toNat < (256 : Word).toNat := by decide

theorem witness_ScaleAtMost254 : legal State.reset.params = true ∧
    (0xFFFFFFFE : Word).toNat < (0xFFFFFFFF : Word).toNat := by decide

theorem witness_ScaleClosedForm256 : (legal State.reset.params = true ∧ (255 : Word).toNat ≤ 255) ∧
    (State.reset.params = Params.thisHardware ∧
      State.reset.buf = some { len := 65536, words := [], id := 0 } ∧ 65536 ≤ 65536 ∧
      (255 : Word).toNat < 256 ∧ (0 : Word).toNat < 256) := by decide

theorem witness_ScaleIsMonotone : legal State.reset.params = true ∧
    (253 : Word).toNat ≤ (254 : Word).toNat ∧ (254 : Word).toNat < (255 : Word).toNat ∧
    (254 : Word).toNat = (253 : Word).toNat + 1 ∧ 255 ≤ (255 : Word).toNat := by decide

theorem witness_PackResult : legal State.reset.params = true ∧
    ((255 : Word).toNat < 256 ∧ (0 : Word).toNat < 256 ∧ (128 : Word).toNat < 256 ∧
      (255 : Word).toNat < 256) ∧
    ¬ ((0 : Word).toNat < 256 ∧ (0 : Word).toNat < 256 ∧ (0 : Word).toNat < 256 ∧
      (256 : Word).toNat < 256) := by decide

theorem witness_PackLanes : legal State.reset.params = true := by decide

theorem witness_PackIsBijection : legal State.reset.params = true ∧
    ∃ t t', exec (.pack ((1 : Channel).setWidth 32) ((2 : Channel).setWidth 32)
        ((3 : Channel).setWidth 32) ((4 : Channel).setWidth 32)) State.reset = .next t ∧
      exec (.pack ((1 : Channel).setWidth 32) ((2 : Channel).setWidth 32)
        ((3 : Channel).setWidth 32) ((4 : Channel).setWidth 32)) State.reset = .next t' ∧
      t.out.resWord = t'.out.resWord := ⟨by decide, _, _, rfl, rfl, rfl⟩

theorem witness_SubunitFrame : ∃ t t' t'', exec (.mapIndex 1 2 3 4) State.reset = .next t ∧
    exec (.scale 1 2 3 4) State.reset = .next t' ∧
    exec (.pack 1 2 3 4) State.reset = .next t'' := ⟨_, _, _, rfl, rfl, rfl⟩

theorem witness_IgnoredFieldsAreNotRead : ∃ t t',
    exec (.invoke 1 1 0 0) State.reset = .next t ∧ exec (.invoke 1 1 9 9) State.reset = .next t' ∧
    t.faults = State.reset.faults ∧ t'.faults = State.reset.faults := ⟨_, _, rfl, rfl, rfl, rfl⟩

/-- In bounds below and at `BUF_LEN = 2`, and out of bounds at `x = W` and at `y = H`. -/
theorem witness_InvokeResult :
    let s := machine 2 2 2 []
    legal s.params = true ∧ s.buf = some { len := 2, words := [], id := 0 } ∧
    (s.params.width ≤ (2 : Word).toNat) ∧ (s.params.height ≤ (2 : Word).toNat) ∧
    ((1 : Word).toNat < s.params.width ∧ (0 : Word).toNat < s.params.height ∧ 0 * 2 + 1 < 2) ∧
    ((0 : Word).toNat < s.params.width ∧ (1 : Word).toNat < s.params.height ∧ 2 ≤ 1 * 2 + 0) := by
  decide

/-- INVOKE writes word 1, faults at word 2 of a two-word buffer, and does nothing at `x = W`. -/
theorem witness_InvokeFrame : ∃ t t' t'', exec (.invoke 1 0 0 0) (machine 2 2 2 []) = .next t ∧
    exec (.invoke 0 1 0 0) (machine 2 2 2 []) = .next t' ∧
    exec (.invoke 2 0 0 0) { machine 2 2 2 [] with buf := none } = .next t'' :=
  ⟨_, _, _, rfl, rfl, rfl⟩

theorem witness_InvokeWritesPixelWord : legal State.reset.params = true ∧
    State.reset.buf = some { len := 65536, words := [], id := 0 } ∧
    State.reset.params.width * State.reset.params.height ≤ 65536 ∧
    (255 : Word).toNat < State.reset.params.width ∧ (255 : Word).toNat < State.reset.params.height ∧
    State.reset.params = Params.thisHardware := by decide

theorem witness_InvokeIsPure : ∃ t t', exec (.invoke 1 0 0 0) (machine 2 2 2 []) = .next t ∧
    exec (.invoke 1 0 7 8) (machine 2 2 9 [.await]) = .next t' ∧
    (machine 2 2 2 []).params = (machine 2 2 9 [.await]).params ∧
    t.out.memWe = true ∧ t'.out.memWe = true := ⟨_, _, rfl, rfl, rfl, rfl, rfl⟩

theorem witness_AnswersDependOnNoState :
    (machine 2 2 2 []).params = (flying 2 2 2 [⟨0, 0, 0⟩] []).params ∧
    (machine 2 2 2 []).buf.map PixelBuffer.len =
      (flying 2 2 2 [⟨0, 0, 0⟩] []).buf.map PixelBuffer.len ∧
    ∃ t, exec (.invoke 1 0 0 0) (machine 2 2 2 []) = .next t := ⟨rfl, rfl, _, rfl⟩

theorem witness_InvokeIsComposition : legal State.reset.params = true ∧
    State.reset.buf = some { len := 65536, words := [], id := 0 } ∧
    State.reset.params.width < 2 ^ 32 ∧ State.reset.params.height < 2 ^ 32 ∧
    State.reset.params.width * State.reset.params.height ≤ 65536 ∧
    (129 : Word).toNat < State.reset.params.width ∧
    (129 : Word).toNat < State.reset.params.height := by decide

theorem witness_WordsPastTheImageAreKept : ∃ t b,
    exec (.invoke 1 1 0 0) (machine 2 2 5 []) = .next t ∧ (machine 2 2 5 []).buf = some b :=
  ⟨_, _, rfl, rfl⟩

theorem witness_WritesAreIdempotent : ∃ t,
    exec (.invoke 1 1 0 0) (machine 2 2 5 []) = .next t ∧ t.out.memWe = true := ⟨_, rfl, rfl⟩

theorem witness_InvocationsCommute : legal (machine 2 2 4 []).params = true ∧
    (machine 2 2 4 []).buf = some { len := 4, words := [], id := 0 } := by decide

theorem witness_BufferTooSmallCondition : (∃ t, exec (.invoke 0 1 5 0) (machine 2 2 2 []) = .next t ∧
      ⟨.bufferTooSmall, ⟨0, 1, 5⟩, 2⟩ ∈ t.faults ∧
      ⟨.bufferTooSmall, ⟨0, 1, 5⟩, 2⟩ ∉ (machine 2 2 2 []).faults) ∧
    legal (machine 2 2 2 []).params = true ∧
    (machine 2 2 2 []).buf = some { len := 2, words := [], id := 0 } ∧
    (0 : Word).toNat < (machine 2 2 2 []).params.width ∧
    (1 : Word).toNat < (machine 2 2 2 []).params.height ∧
    2 ≤ (1 : Word).toNat * (machine 2 2 2 []).params.width + (0 : Word).toNat :=
  ⟨⟨_, rfl, by decide, by decide⟩, by decide⟩

theorem witness_FaultsAreNeverCleared :
    let s := { flying 2 2 2 [⟨1, 1, 0⟩] [.pick 0] with
      faults := [⟨.bufferTooSmall, ⟨0, 1, 0⟩, 2⟩] }
    s.pending ≠ [] ∧ s.inputs.head? ≠ some .reset ∧ (∃ t, step s = .next t) ∧
      ⟨.bufferTooSmall, ⟨0, 1, 0⟩, 2⟩ ∈ s.faults :=
  ⟨by decide, by decide, ⟨_, rfl⟩, by decide⟩

theorem witness_IllegalParametersAreRefused :
    let s := machine 0 2 4 [.dispatch 1 1 1]
    legal s.params = false ∧ s.pending = [] ∧ s.inputs = .dispatch 1 1 1 :: [] := by decide

theorem witness_NoBufferIsRefused :
    let s := { machine 2 2 4 [.dispatch 1 1 1] with buf := none }
    legal s.params = true ∧ s.buf = none ∧ s.pending = [] ∧ s.inputs = .dispatch 1 1 1 :: [] ∧
    ((1 : Word).toNat < s.params.width ∧ (1 : Word).toNat < s.params.height) ∧
    ¬ ((1 : Word).toNat < s.params.width ∧ (2 : Word).toNat < s.params.height) := by decide

theorem witness_RefusalReasons :
    exec (.scale 0 0 0 0) (machine 0 2 4 []) = .refused .parameterIllegal ∧
    exec (.invoke 1 1 0 0) { machine 2 2 4 [] with buf := none } = .refused .noBufferBound ∧
    exec (.scale 256 256 0 0) State.reset = .refused .scaleOutOfDomain ∧
    exec (.pack 0 0 0 256) State.reset = .refused .packOperandWidth := ⟨rfl, rfl, rfl, rfl⟩

/-- The common hypotheses of the statements about a launch and its run. -/
theorem witness_launch :
    let s := machine 2 2 4 (.dispatch 2 2 1 :: [3, 0].map .pick)
    legal s.params = true ∧ s.buf = some { len := 4, words := [], id := 0 } ∧ s.pending = [] ∧
      s.inputs = .dispatch 2 2 1 :: [3, 0].map .pick ∧
      2 ≤ 2 ^ 32 ∧ 2 ≤ 2 ^ 32 ∧ 1 ≤ 2 ^ 32 ∧ 4 ≤ 2 * 2 * 1 ∧
      s.params.width * s.params.height ≤ 4 := by decide

/-- R107's own case: the host binds the complete image of one pixel and dispatches over it. -/
theorem witness_RedispatchChangesNothing_complete_image :
    let b : PixelBuffer := { len := 1, words := [(0, 0xFF800000)], id := 0 }
    let s := { machine 1 1 1 (.dispatch 2 1 1 :: [1].map .pick) with buf := some b }
    legal s.params = true ∧ s.buf = some b ∧ s.pending = [] ∧
      s.inputs = .dispatch 2 1 1 :: [1].map .pick ∧ s.params.width * s.params.height ≤ b.len ∧
      ∀ j, j < s.params.width * s.params.height → b.word j = pixelWordAt s.params j := by decide

/-- One pixel dispatched twice: the runs exist and are clean. -/
theorem witness_RedispatchChangesNothing :
    let s := machine 1 1 1 (.dispatch 1 1 1 :: [0].map .pick)
    legal s.params = true ∧ s.buf = some { len := 1, words := [], id := 0 } ∧ s.pending = [] ∧
    ∃ t t' c c', Host.Core.run Sys2Proof.core (1 * 1 * 1 + 1) s = .next t ∧
      Host.Core.run Sys2Proof.core (1 * 1 * 1 + 1)
        { t with inputs := .dispatch 1 1 1 :: [0].map .pick } = .next t' ∧
      t.faults = [] ∧ t'.faults = [] ∧ t.buf = some c ∧ t'.buf = some c' ∧ 0 < 1 :=
  ⟨by decide, rfl, rfl, _, _, _, _, rfl, rfl, rfl, rfl, rfl, rfl, by decide⟩

/-- Two schedules of a two-pixel dispatch: both runs exist, one clean and one with a short buffer. -/
theorem witness_ScheduleDoesNotMatter :
    let s := machine 2 1 2 (.dispatch 2 1 1 :: [0, 0].map .pick)
    legal s.params = true ∧ s.buf = some { len := 2, words := [], id := 0 } ∧ s.pending = [] ∧
    ∃ t t' c c', Host.Core.run Sys2Proof.core (2 * 1 * 1 + 1) s = .next t ∧
      Host.Core.run Sys2Proof.core (2 * 1 * 1 + 1)
        { s with inputs := .dispatch 2 1 1 :: [1, 0].map .pick } = .next t' ∧
      t.buf = some c ∧ t'.buf = some c' ∧ t.faults = [] :=
  ⟨by decide, rfl, rfl, _, _, _, _, rfl, rfl, rfl, rfl, rfl⟩

/-- A one-pixel dispatch whose one invocation is pending has the invariant. -/
theorem flying_one_inv : (flying 1 1 1 [⟨0, 0, 0⟩] [.pick 0]).Inv where
  legal := by show legal _ = true; decide
  buf_wf := by intro b h; cases h; exact Memory.wf_nil _
  faults_wf := List.Pairwise.nil
  faults_sound := by intro r h; cases h
  no_launch := by intro h; cases h
  dispatch := by
    intro l h
    cases h
    refine ⟨_, rfl, ⟨Memory.wf_nil _, rfl, rfl, by show List.Nodup [_]; simp, ?_, ?_, ?_⟩⟩
    · intro c hc
      obtain rfl := List.mem_singleton.mp hc
      exact ⟨by decide, by decide, by decide⟩
    · intro r h; cases h
    · intro _ j hj
      have h0 : j = 0 := by
        have : j < 1 := hj
        omega
      subst h0
      exact .inr ⟨⟨by decide, by decide, by decide, by decide⟩,
        ⟨⟨0, 0, 0⟩, List.mem_singleton.mpr rfl, by decide, by decide⟩, rfl⟩

theorem witness_StepKeepsInvariant : (flying 1 1 1 [⟨0, 0, 0⟩] [.pick 0]).Inv ∧
    ∃ t, step (flying 1 1 1 [⟨0, 0, 0⟩] [.pick 0]) = .next t := ⟨flying_one_inv, _, rfl⟩

/-- An empty grid over a one-pixel image: complete, clean, and its word is what it was at launch. -/
theorem witness_InvariantGivesDispatchResult :
    let b : PixelBuffer := { len := 1, words := [], id := 0 }
    let s := { machine 1 1 1 [] with launch := some { gx := 0, gy := 1, gz := 1, buf0 := b } }
    s.Inv ∧ s.launch = some { gx := 0, gy := 1, gz := 1, buf0 := b } ∧ s.buf = some b ∧ s.Clean ∧
      0 < b.len := by
  refine ⟨⟨by show legal _ = true; decide, ?_, List.Pairwise.nil, ?_, fun _ => rfl, ?_⟩, rfl, rfl,
    ⟨rfl, rfl⟩, by decide⟩
  · intro b h; cases h; exact Memory.wf_nil _
  · intro r h; cases h
  · intro l h
    cases h
    exact ⟨_, rfl, Memory.wf_nil _, rfl, rfl, List.nodup_nil, fun c hc => (by cases hc),
      fun r hr => (by cases hr), fun _ j _ => .inl ⟨fun hc => absurd hc.2.1 (Nat.not_lt_zero _), fun _ => rfl⟩⟩

theorem witness_ResetBetweenDispatches :
    let s := { machine 2 2 4 [.reset] with faults := [⟨.bufferTooSmall, ⟨0, 1, 0⟩, 2⟩] }
    s.pending = [] ∧ s.inputs = .reset :: [] ∧ legal s.params = true ∧ s.buf ≠ none := by decide

theorem witness_ResetDuringDispatch :
    let s := flying 2 2 4 [⟨1, 1, 0⟩] [.reset]
    legal s.params = true ∧ s.pending ≠ [] ∧
      s.launch = some ⟨2, 2, 1, { len := 4, words := [], id := 0 }⟩ ∧ s.inputs = .reset :: [] := by
  decide

/-- With `gx = 1`, word 0 is covered by the grid and word 1 is not. -/
theorem witness_Covers :
    let l : Launch := ⟨1, 2, 1, { len := 4, words := [], id := 0 }⟩
    l.Covers ⟨2, 2, 128, 255⟩ 0 ∧ ¬ l.Covers ⟨2, 2, 128, 255⟩ 1 :=
  ⟨⟨by decide, by decide, by decide, by decide⟩, fun h => absurd h.2.1 (by decide)⟩

theorem witness_HostReadAfterCompletion :
    let s := machine 2 2 4 [.read 3]
    s.pending = [] ∧ s.buf = some { len := 4, words := [], id := 0 } ∧ 3 < 4 ∧
      s.inputs = .read 3 :: [] := by decide

theorem witness_HostReadDuringDispatch :
    (let s := flying 2 2 4 [⟨1, 1, 0⟩] [.read 3]
     s.pending ≠ [] ∧ s.launch = some ⟨2, 2, 1, { len := 4, words := [], id := 0 }⟩ ∧
       s.buf = some { len := 4, words := [], id := 0 } ∧ s.inputs = .read 3 :: [] ∧ 3 < 4) ∧
    (let s := flying 2 2 4 [⟨1, 1, 0⟩] [.read 4]
     s.pending ≠ [] ∧ s.inputs = .read 4 :: [] ∧ 4 ≤ 4) := by decide

/-- The last word stated twice, one stated past the length, one not stated; and the empty list. -/
theorem witness_BindGivesBuffer :
    (let init : Memory := [(7, 1), (8, 2), (7, 0xDEADBEEF)]
     let s := machine 2 2 4 [.bind 8 init]
     s.pending = [] ∧ s.inputs = .bind 8 init :: [] ∧
       (init = [(7, 1), (8, 2)] ++ (7, 0xDEADBEEF) :: [] ∧ 7 < 8) ∧
       (∀ c ∈ init, c.1 ≠ 6) ∧ 8 ≤ 8) ∧
    (let s := machine 2 2 4 [.bind 8 []]
     s.pending = [] ∧ s.inputs = .bind 8 [] :: [] ∧ ∀ c ∈ ([] : Memory), c.1 ≠ 0) := by decide

/-- A word stated twice: the last entry counts (log 26). -/
theorem test_bind_last_entry : ((next? (step (machine 2 2 4 [.bind 8 [(7, 1), (8, 2), (7, 3)]]))).map
    (fun t => t.buf.map PixelBuffer.words)) = some (some [(7, 3)]) := by decide

theorem witness_ReleaseUnbinds :
    let s := machine 2 2 4 [.release]
    s.pending = [] ∧ s.inputs = .release :: [] := by decide

theorem witness_HostReadOutsideBuffer :
    (let s := machine 2 2 4 [.read 4]
     s.inputs = .read 4 :: [] ∧ s.buf = some { len := 4, words := [], id := 0 } ∧ 4 ≤ 4) ∧
    (let s := flying 2 2 4 [⟨1, 1, 0⟩] [.read 5]
     s.inputs = .read 5 :: [] ∧ s.buf = some { len := 4, words := [], id := 0 } ∧ 4 ≤ 5) ∧
    (let s := { machine 2 2 4 [.read 0] with buf := none }
     s.inputs = .read 0 :: [] ∧ s.buf = none) := by decide

theorem witness_ByteViewIsAligned :
    (let s := machine 2 2 4 []
     legal s.params = true ∧ s.buf = some { len := 4, words := [], id := 0 } ∧ 8 % 4 = 0 ∧
       (1 : Word).toNat < s.params.width ∧ (1 : Word).toNat < s.params.height ∧
       (1 : Word).toNat * s.params.width + (1 : Word).toNat < 4) ∧
    1 % 4 ≠ 0 := by decide

theorem witness_ByteViewOfWords : 8 % 4 = 0 ∧ 3 < (PixelBuffer.mk 4 [] 0).len ∧ 3 < 4 := by decide

end Sys2Proof.Tests
end

section
/-! PROOF. The host's moves and the byte view: 20_memory.md rules R28 and R37. -/

namespace Sys2Proof.Machine

/-- The step at a host move that need not wait is that move. -/
theorem step_of_inputs_cons {s : State} {m : HostMove} {rest : List HostMove}
    (hi : s.inputs = m :: rest) (hm : s.pending = [] ∨ m.waits = false) :
    step s = serve m { s with inputs := rest } := by
  rcases hm with hp | hw
  · simp [step, nextEvent, hi, hp]
  · simp [step, nextEvent, hi, hw]

/-- With the host's list empty, an invocation in flight is picked freely (R36). -/
theorem step_of_inputs_nil {s : State} (hi : s.inputs = []) (hp : s.pending ≠ []) :
    step s = runPending (Config.pick s.draws) { s with draws := s.draws + 1 } := by
  cases h : s.pending with
  | nil => exact absurd h hp
  | cons c cs => simp [step, nextEvent, hi, advance, h]

theorem hostRead_of_complete {s : State} {b : PixelBuffer} {j : Nat} (hp : s.pending = [])
    (hb : s.buf = some b) (hj : j < b.len) :
    hostRead j s = .next { s with readData := some (b.word j) } := by
  simp [hostRead, hb, hj, hp]

/-- Settles O53: a read never waits, and with nothing pending it takes the word as it stands. -/
theorem hostReadAfterCompletion : Obligations.HostReadAfterCompletion := by
  intro s b j rest hp hb hj hi
  calc step s = hostRead j { s with inputs := rest } := step_of_inputs_cons hi (.inl hp)
    _ = .next { s with inputs := rest, readData := some (b.word j) } :=
      hostRead_of_complete hp hb hj

/-- Byte `k` of word `i` stands `k` after the word's address in the byte view (R28). -/
theorem PixelBuffer.byteAt_wordAddress_add {b : PixelBuffer} {base i k : Nat} (order : ByteOrder)
    (hbase : base % 4 = 0) (hi : i < b.len) (hk : k < 4) :
    b.byteAt order base (wordAddress base i + k) = some (byteOfWord order (b.word i) k) := by
  have hview : legalBase base = true ∧ base ≤ wordAddress base i + k ∧
      wordAddress base i + k < wordAddress base b.len := by
    simp only [legalBase, wordAddress, decide_eq_true_eq]; omega
  have hword : (wordAddress base i + k - base) / 4 = i := by rw [wordAddress]; omega
  have hbyte : (wordAddress base i + k - base) % 4 = k := by rw [wordAddress]; omega
  rw [PixelBuffer.byteAt, if_pos hview, hword, hbyte]

/-- Settles O57: the byte of the view is `byteOfWord`, whose two cases are the two byte orders. -/
theorem byteViewOfWords : Obligations.ByteViewOfWords := by
  intro b base i k hbase hi hk
  exact ⟨PixelBuffer.byteAt_wordAddress_add .littleEndian hbase hi hk,
    PixelBuffer.byteAt_wordAddress_add .bigEndian hbase hi hk⟩

end Sys2Proof.Machine
end

section
/-! PROOF. A dispatch in flight: what the invocations that have taken their step did to the buffer and
to the fault set, whatever their order (R35, R36, R80, R82). -/

namespace Sys2Proof.Machine

/-- The invocation is in bounds and word `j` is its pixel's (R57). -/
def Coord.Addresses (p : Params) (x : Coord) (j : Nat) : Prop :=
  inBounds p x.x x.y = true ∧ (linearIndex p x.x x.y).toNat = j

/-- Over a buffer of `len` words the invocation records the fault `r` (R86). -/
def Coord.Faults (p : Params) (len : Nat) (x : Coord) (r : FaultRecord) : Prop :=
  inBounds p x.x x.y = true ∧ len ≤ (linearIndex p x.x x.y).toNat ∧
    r = { reason := .bufferTooSmall, coord := x, info := linearIndex p x.x x.y }

/-- One of the invocations `xs` has word `j` as its pixel's. -/
def SomeAddresses (p : Params) (xs : List Coord) (j : Nat) : Prop := ∃ x ∈ xs, x.Addresses p j

theorem someAddresses_cons {p : Params} {x : Coord} {xs : List Coord} {j : Nat} :
    SomeAddresses p (x :: xs) j ↔ x.Addresses p j ∨ SomeAddresses p xs j := by
  simp [SomeAddresses]

/-- The word an invocation writes depends on the word's index alone (R59). -/
theorem Coord.Addresses.pixelWord_eq {p : Params} {x : Coord} {j : Nat} (hp : legal p = true)
    (h : x.Addresses p j) : pixelWord p x.x.toNat x.y.toNat = pixelWordAt p j := by
  obtain ⟨hin, rfl⟩ := h
  obtain ⟨hmod, hdiv⟩ := pixel_of_index (y := x.y.toNat) (inBounds_iff.mp hin).1
  rw [pixelWordAt, toNat_linearIndex hp hin, hmod, hdiv]

theorem Coord.Addresses.lt_image {p : Params} {x : Coord} {j : Nat} (hp : legal p = true)
    (h : x.Addresses p j) : j < p.width * p.height := by
  obtain ⟨hin, rfl⟩ := h
  obtain ⟨hx, hy⟩ := inBounds_iff.mp hin
  exact toNat_linearIndex hp hin ▸ index_lt_image hx hy

/-- A buffer of the image's size gives no invocation a fault (R86). -/
theorem Coord.not_faults_of_image_le {p : Params} {len : Nat} {x : Coord} {r : FaultRecord}
    (hp : legal p = true) (hlen : p.width * p.height ≤ len) : ¬ x.Faults p len r := by
  rintro ⟨hin, hpast, -⟩
  have hlt := Coord.Addresses.lt_image hp (x := x) ⟨hin, rfl⟩
  omega

/-- The words some invocation of a grid addresses are those the launch covers (R81). -/
theorem someAddresses_gridCoords_iff {p : Params} (hp : legal p = true) (l : Launch) (j : Nat) :
    SomeAddresses p (gridCoords l.gx l.gy l.gz) j ↔ l.Covers p j := by
  obtain ⟨hw, -, -, hw32, hh32, -, -⟩ := legal_iff.mp hp
  constructor
  · rintro ⟨x, hx, hadr⟩
    have himage := hadr.lt_image hp
    obtain ⟨hin, rfl⟩ := hadr
    obtain ⟨hgx, hgy, hgz⟩ := mem_gridCoords.mp hx
    obtain ⟨hmod, hdiv⟩ := pixel_of_index (y := x.y.toNat) (inBounds_iff.mp hin).1
    rw [toNat_linearIndex hp hin] at himage ⊢
    exact ⟨himage, hmod.symm ▸ hgx, hdiv.symm ▸ hgy, by omega⟩
  · rintro ⟨himage, hgx, hgy, hgz⟩
    have hmod : j % p.width < p.width := Nat.mod_lt _ hw
    have hdiv : j / p.width < p.height := Nat.div_lt_of_lt_mul himage
    have hx : (BitVec.ofNat 32 (j % p.width)).toNat = j % p.width := by
      rw [BitVec.toNat_ofNat, Nat.mod_eq_of_lt (by omega)]
    have hy : (BitVec.ofNat 32 (j / p.width)).toNat = j / p.width := by
      rw [BitVec.toNat_ofNat, Nat.mod_eq_of_lt (by omega)]
    have hin : inBounds p (BitVec.ofNat 32 (j % p.width)) (BitVec.ofNat 32 (j / p.width)) = true :=
      inBounds_iff.mpr ⟨hx.symm ▸ hmod, hy.symm ▸ hdiv⟩
    refine ⟨Coord.ofNat (j % p.width) (j / p.width) 0, mem_gridCoords.mpr ?_, hin, ?_⟩
    · exact ⟨hx.symm ▸ hgx, hy.symm ▸ hgy, hgz⟩
    · calc (linearIndex p (BitVec.ofNat 32 (j % p.width)) (BitVec.ofNat 32 (j / p.width))).toNat
          = j / p.width * p.width + j % p.width := by rw [toNat_linearIndex hp hin, hx, hy]
        _ = j := Nat.div_add_mod' j p.width

/-- What a pending invocation's step does to the buffer, the fault set and the dispatch (R71, R86). -/
theorem exec_instr_effect {s : State} {c : PixelBuffer} (hp : legal s.params = true)
    (hb : s.buf = some c) (x : Coord) :
    ∃ t c', exec x.instr s = .next t ∧
      (t.params = s.params ∧ t.pending = s.pending ∧ t.inputs = s.inputs) ∧
      t.buf = some c' ∧ c'.len = c.len ∧
      (∀ j, j < c.len → (x.Addresses s.params j → c'.word j = pixelWordAt s.params j) ∧
        (¬ x.Addresses s.params j → c'.word j = c.word j)) ∧
      (∀ r, r ∈ t.faults ↔ r ∈ s.faults ∨ x.Faults s.params c.len r) ∧
      (faultsWf s.faults → faultsWf t.faults) := by
  obtain ⟨t, c', hexec, hbuf, hlen, -, -, hwf, hword, hfault⟩ :=
    exec_invoke_effect hp hb x.x x.y x.z 0
  obtain ⟨hparams, hpend, -, -, hinputs, -⟩ := exec_frame hexec
  refine ⟨t, c', hexec, ⟨hparams, hpend, hinputs⟩, hbuf, hlen, fun j hj => ⟨?_, fun h => ?_⟩,
    hfault, hwf⟩
  · rintro ⟨hin, hidx⟩
    rw [hword j, if_pos ⟨hin, hidx ▸ hj, hidx.symm⟩, Coord.Addresses.pixelWord_eq hp ⟨hin, hidx⟩]
  · rw [hword j, if_neg fun ⟨hin, _, hidx⟩ => h ⟨hin, hidx.symm⟩]

/-- A dispatch of the triples `grid` over the buffer `b`, in flight or complete: in the state `s`,
with the buffer now `c`, the invocations `done` have taken their step and the pending ones have not. -/
structure Progress (p : Params) (b : PixelBuffer) (grid done : List Coord) (s : State)
    (c : PixelBuffer) : Prop where
  params : s.params = p
  buf : s.buf = some c
  same_len : c.len = b.len
  /-- Every triple of the grid is done or pending, as often as it stands in the grid (R21). -/
  order : (done ++ s.pending).Perm grid
  /-- The host's moves to come are the dispatcher's choices (R36). -/
  schedule : ∃ ks : List Nat, s.inputs = ks.map .pick
  /-- A word is its pixel word once an invocation of its pixel is done, and until then the old one. -/
  words : ∀ j, j < b.len → (SomeAddresses p done j → c.word j = pixelWordAt p j) ∧
    (¬ SomeAddresses p done j → c.word j = b.word j)
  /-- The faults are those of the invocations done (R86). -/
  faults : ∀ r, r ∈ s.faults ↔ ∃ x ∈ done, x.Faults p b.len r
  faults_wf : faultsWf s.faults

section
variable {p : Params} {b c : PixelBuffer} {grid done : List Coord} {s : State}

/-- A launch starts the dispatch with nothing done. -/
theorem progress_of_dispatch {gx gy gz : Nat} {ks : List Nat} (hp : legal s.params = true)
    (hb : s.buf = some b) (hpend : s.pending = [])
    (hi : s.inputs = .dispatch gx gy gz :: ks.map .pick) :
    ∃ t, step s = .next t ∧ t.pending = gridCoords gx gy gz ∧
      Progress s.params b (gridCoords gx gy gz) [] t b := by
  have hstep : step s = launchGrid gx gy gz { s with inputs := ks.map .pick } :=
    step_of_inputs_cons hi (.inl hpend)
  refine ⟨_, hstep.trans (launchGrid_eq_next.mpr ⟨hp, b, hb, rfl⟩), rfl, ?_⟩
  exact
    { params := rfl
      buf := hb
      same_len := rfl
      order := .refl _
      schedule := ⟨ks, rfl⟩
      words := fun j _ => ⟨fun ⟨_, hx, _⟩ => absurd hx List.not_mem_nil, fun _ => rfl⟩
      faults := by simp
      faults_wf := .nil }

/-- Under any schedule, the step of a dispatch in flight executes one of its pending invocations. -/
theorem step_runs_pending {ks : List Nat} (hi : s.inputs = ks.map .pick) (hpend : s.pending ≠ []) :
    ∃ (k : Nat) (hk : k < s.pending.length) (ks' : List Nat) (d : Nat),
      step s = exec s.pending[k].instr
        { s with pending := s.pending.eraseIdx k, inputs := ks'.map .pick, draws := d } := by
  cases ks with
  | nil =>
    obtain ⟨_, hk, rfl, -, hrun⟩ := runPending_of_pending
      (s := { s with draws := s.draws + 1 }) hpend (Config.pick s.draws)
    exact ⟨_, hk, [], _, by rw [step_of_inputs_nil hi hpend, hrun, hi]⟩
  | cons k ks =>
    obtain ⟨_, hk, rfl, -, hrun⟩ := runPending_of_pending
      (s := { s with inputs := ks.map .pick }) hpend k
    exact ⟨_, hk, ks, s.draws, (step_of_inputs_cons hi (.inr rfl)).trans hrun⟩

/-- One step of a dispatch in flight: one more invocation is done. -/
theorem Progress.step (hp : legal p = true) (h : Progress p b grid done s c)
    (hpend : s.pending ≠ []) :
    ∃ t x c', Machine.step s = .next t ∧ t.pending.length + 1 = s.pending.length ∧
      Progress p b grid (x :: done) t c' := by
  obtain ⟨rfl, hbuf, hlen, horder, ⟨ks, hi⟩, hwords, hfaults, hwf⟩ := h
  obtain ⟨k, hk, ks', d, hstep⟩ := step_runs_pending hi hpend
  obtain ⟨t, c', hexec, ⟨hparams', hpend', hinputs'⟩, hbuf', hlen', hwords', hfaults', hwf'⟩ :=
    exec_instr_effect (s := { s with
      pending := s.pending.eraseIdx k, inputs := ks'.map .pick, draws := d }) hp hbuf s.pending[k]
  have hperm : (s.pending[k] :: t.pending).Perm s.pending := by
    rw [hpend']; exact List.getElem_cons_eraseIdx_perm hk
  refine ⟨t, s.pending[k], c', hstep.trans hexec, hperm.length_eq, ?_⟩
  exact
    { params := hparams'
      buf := hbuf'
      same_len := hlen'.trans hlen
      order := (List.perm_middle.symm.trans (hperm.append_left done)).trans horder
      schedule := ⟨ks', hinputs'⟩
      words := fun j hj => by
        obtain ⟨hthis, hother⟩ := hwords' j (hlen.symm ▸ hj)
        rw [someAddresses_cons]
        by_cases hx : s.pending[k].Addresses s.params j
        · exact ⟨fun _ => hthis hx, fun hnot => absurd (.inl hx) hnot⟩
        · simpa only [hother hx, hx, false_or] using hwords j hj
      faults := fun r => by
        rw [hfaults' r, hfaults r, hlen, List.exists_mem_cons_iff, or_comm]
      faults_wf := hwf' hwf }

/-- A dispatch in flight takes any number of steps up to what is pending, whatever the schedule. -/
theorem Progress.run (hp : legal p = true) (n : Nat) (h : Progress p b grid done s c)
    (hn : n ≤ s.pending.length) :
    ∃ t done' c', Host.Core.run Sys2Proof.core n s = .next t ∧
      t.pending.length = s.pending.length - n ∧ Progress p b grid done' t c' := by
  induction n generalizing s done c with
  | zero => exact ⟨s, done, c, rfl, rfl, h⟩
  | succ n ih =>
    obtain ⟨u, x, c₁, hstep, hlen, hu⟩ := h.step hp (List.ne_nil_of_length_pos (by omega))
    obtain ⟨t, done', c', hrun, hlen', ht⟩ := ih hu (by omega)
    exact ⟨t, done', c', (run_succ n hstep).trans hrun, by omega, ht⟩

/-- A dispatch with nothing pending has run its whole grid, in some order. -/
theorem Progress.all_done (h : Progress p b grid done s c) (hpend : s.pending = []) :
    Progress p b grid grid s c := by
  have hperm : done.Perm grid := by simpa [hpend] using h.order
  have hsame (j : Nat) : SomeAddresses p done j ↔ SomeAddresses p grid j := by
    simp only [SomeAddresses, hperm.mem_iff]
  exact
    { h with
      order := by rw [hpend, List.append_nil]
      words := fun j hj => by simpa only [hsame] using h.words j hj
      faults := fun r => by simpa only [hperm.mem_iff] using h.faults r }

end

/-- The launch and the first `n` steps of its dispatch, under any schedule (R80, R109). -/
theorem run_dispatch {s : State} {b : PixelBuffer} {gx gy gz : Nat} {ks : List Nat} {n : Nat}
    (hp : legal s.params = true) (hb : s.buf = some b) (hpend : s.pending = [])
    (hgx : gx ≤ 2 ^ 32) (hgy : gy ≤ 2 ^ 32) (hgz : gz ≤ 2 ^ 32)
    (hi : s.inputs = .dispatch gx gy gz :: ks.map .pick) (hn : n ≤ gx * gy * gz) :
    ∃ t done c, Host.Core.run Sys2Proof.core (n + 1) s = .next t ∧
      t.pending.length = gx * gy * gz - n ∧
      Progress s.params b (gridCoords gx gy gz) done t c := by
  obtain ⟨u, hlaunch, hgrid, hu⟩ := progress_of_dispatch hp hb hpend hi
  have hlen : u.pending.length = gx * gy * gz := by rw [hgrid, length_gridCoords hgx hgy hgz]
  obtain ⟨t, done, c, hrun, hleft, ht⟩ := hu.run hp n (hlen ▸ hn)
  exact ⟨t, done, c, (run_succ n hlaunch).trans hrun, hlen ▸ hleft, ht⟩

/-- The complete dispatch, under any schedule: every invocation of the grid is done. -/
theorem run_dispatch_complete {s : State} {b : PixelBuffer} {gx gy gz : Nat} {ks : List Nat}
    (hp : legal s.params = true) (hb : s.buf = some b) (hpend : s.pending = [])
    (hgx : gx ≤ 2 ^ 32) (hgy : gy ≤ 2 ^ 32) (hgz : gz ≤ 2 ^ 32)
    (hi : s.inputs = .dispatch gx gy gz :: ks.map .pick) :
    ∃ t c, Host.Core.run Sys2Proof.core (gx * gy * gz + 1) s = .next t ∧ t.pending = [] ∧
      Progress s.params b (gridCoords gx gy gz) (gridCoords gx gy gz) t c := by
  obtain ⟨t, done, c, hrun, hleft, ht⟩ := run_dispatch hp hb hpend hgx hgy hgz hi le_rfl
  have hdone : t.pending = [] := List.eq_nil_of_length_eq_zero (by omega)
  exact ⟨t, c, hrun, hdone, ht.all_done hdone⟩

/-- Settles O42: the run ends with the whole grid done, which is R81's result word by word, and over a
buffer of the image's size no invocation has a fault. -/
theorem cleanDispatchResult : Obligations.CleanDispatchResult := by
  intro s b gx gy gz ks hp hb hpend hgx hgy hgz hi
  obtain ⟨t, c, hrun, hdone, ht⟩ := run_dispatch_complete hp hb hpend hgx hgy hgz hi
  refine ⟨t, c, hrun, hdone, ht.buf, ht.same_len, fun himage => ?_, fun _ j hj => ?_⟩
  · refine List.eq_nil_iff_forall_not_mem.mpr fun r hr => ?_
    obtain ⟨x, -, hx⟩ := (ht.faults r).mp hr
    exact Coord.not_faults_of_image_le hp himage hx
  · have hcovers := someAddresses_gridCoords_iff hp ⟨gx, gy, gz, b⟩ j
    split
    case isTrue h => exact (ht.words j hj).1 (hcovers.mpr h)
    case isFalse h => exact (ht.words j hj).2 (mt hcovers.mp h)

/-- Settles O45: both runs end with the same grid done, and what is done fixes the fault set and every
word. -/
theorem scheduleDoesNotMatter : Obligations.ScheduleDoesNotMatter := by
  rintro s _ t t' b c c' gx gy gz ks ks' hp hb hpend hgx hgy hgz hi rfl hrun hrun' hc hc'
  obtain ⟨u, d, hu, -, h⟩ := run_dispatch_complete hp hb hpend hgx hgy hgz hi
  obtain ⟨u', d', hu', -, h'⟩ := run_dispatch_complete
    (s := { s with inputs := .dispatch gx gy gz :: ks'.map .pick }) hp hb hpend hgx hgy hgz rfl
  obtain rfl : u = t := Host.Outcome.next.inj (hu.symm.trans hrun)
  obtain rfl : u' = t' := Host.Outcome.next.inj (hu'.symm.trans hrun')
  obtain rfl : d = c := Option.some.inj (h.buf.symm.trans hc)
  obtain rfl : d' = c' := Option.some.inj (h'.buf.symm.trans hc')
  refine ⟨fun r => (h.faults r).trans (h'.faults r).symm, fun _ j hj => ?_⟩
  by_cases hj' : SomeAddresses s.params (gridCoords gx gy gz) j
  · exact ((h.words j hj).1 hj').trans ((h'.words j hj).1 hj').symm
  · exact ((h.words j hj).2 hj').trans ((h'.words j hj).2 hj').symm

end Sys2Proof.Machine
end

section
/-! PROOF. The request as a number and the decoder's choice: 30_encoding.md rules R45, R46, R52, R56. -/

namespace Sys2Proof

/-- A shifted concatenation is the bitwise or of its shifted parts, the low part first. -/
theorem shiftLeft_toNat_append {n m : Nat} (x : BitVec n) (y : BitVec m) (k : Nat) :
    (x ++ y).toNat <<< k = y.toNat <<< k ||| x.toNat <<< (m + k) := by
  rw [BitVec.toNat_append, Nat.shiftLeft_or_distrib, Nat.shiftLeft_add, Nat.or_comm]

/-- The request is the bitwise or of its fields, each shifted to its place (R45). -/
theorem Req.toNat_ofFields_or (op : BitVec 2) (opa opb opc opd : Word) :
    (Req.ofFields op opa opb opc opd).toNat =
      op.toNat ||| (opa.toNat <<< 2) ||| (opb.toNat <<< 34) ||| (opc.toNat <<< 66) |||
        (opd.toNat <<< 98) := by
  calc (Req.ofFields op opa opb opc opd).toNat
      = (opd ++ opc ++ opb ++ opa).toNat <<< 2 ||| op.toNat := BitVec.toNat_append _ op
    _ = op.toNat ||| (opa.toNat <<< 2 ||| (opb.toNat <<< 34 ||| (opc.toNat <<< 66 |||
          opd.toNat <<< 98))) := by
      rw [Nat.or_comm, shiftLeft_toNat_append, shiftLeft_toNat_append, shiftLeft_toNat_append]
    _ = _ := by simp only [Nat.or_assoc]

/-- Settles O2: the number is the concatenation of R45 written with shifts, and the five bit ranges
are the fields, each of which the concatenation gives back. -/
theorem requestFormat : Obligations.RequestFormat := fun op opa opb opc opd =>
  ⟨Req.toNat_ofFields_or op opa opb opc opd, Req.op_ofFields op opa opb opc opd,
    Req.opa_ofFields op opa opb opc opd, Req.opb_ofFields op opa opb opc opd,
    Req.opc_ofFields op opa opb opc opd, Req.opd_ofFields op opa opb opc opd⟩

section
variable {q : Req}

theorem decode_of_op_zero (h : q.op = 0) : decode q = .ok (.invoke q.opa q.opb q.opc q.opd) := by
  simp [decode, h]

theorem decode_of_op_one (h : q.op = 1) : decode q = .ok (.mapIndex q.opa q.opb q.opc q.opd) := by
  simp [decode, h]

theorem decode_of_op_two (h : q.op = 2) : decode q = .ok (.scale q.opa q.opb q.opc q.opd) := by
  simp [decode, h]

/-- A `PACK` request decodes by the check on its four operands alone (R52, R56). -/
theorem decode_of_op_three (h : q.op = 3) :
    decode q = if isChannel q.opa && isChannel q.opb && isChannel q.opc && isChannel q.opd then
      .ok (.pack q.opa q.opb q.opc q.opd) else .error .packOperandWidth := by
  simp [decode, h]

/-- The check on the operand field that starts at bit `n` looks at the request's bits `n + 31` to
`n + 8` (R47, R52). -/
theorem isChannel_extractLsb' (n : Nat) :
    isChannel (q.extractLsb' n 32) = true ↔ q.extractLsb' (n + 8) 24 = 0 := by
  have hbits : (q.extractLsb' n 32).extractLsb' 8 24 = q.extractLsb' (n + 8) 24 := by
    ext i hi
    have hin : 8 + i < 32 := by omega
    simp [hin, Nat.add_assoc]
  rw [isChannel, hbits, beq_iff_eq]

/-- All four operands are channels exactly when the upper 24 bits of each are zero (R52). -/
theorem operands_isChannel_iff :
    (isChannel q.opa && isChannel q.opb && isChannel q.opc && isChannel q.opd) = true ↔
      q.extractLsb' 10 24 = 0 ∧ q.extractLsb' 42 24 = 0 ∧ q.extractLsb' 74 24 = 0 ∧
        q.extractLsb' 106 24 = 0 := by
  simp only [Bool.and_eq_true, and_assoc, Req.opa, Req.opb, Req.opc, Req.opd,
    isChannel_extractLsb', Nat.reduceAdd]

end

/-- Settles O3: `op` alone chooses among the four operations, and for `PACK` the operand check is
that of the four ranges of upper bits. -/
theorem decoderIsTotal : Obligations.DecoderIsTotal := fun _ =>
  ⟨decode_of_op_zero, decode_of_op_one, decode_of_op_two, fun hop =>
    ⟨fun hzero => (decode_of_op_three hop).trans (if_pos (operands_isChannel_iff.mpr hzero)),
      fun hwide => (decode_of_op_three hop).trans (if_neg (mt operands_isChannel_iff.mp hwide))⟩⟩

end Sys2Proof
end

section
/-! PROOF. MAP_INDEX: 40_pixel_index_mapper.md rules R57 to R60. -/

namespace Sys2Proof

/-- A request with operation code 1 is MAP_INDEX of its fields (R46, R57). -/
theorem decode_ofFields_one (x y opc opd : Word) :
    decode (Req.ofFields 1 x y opc opd) = .ok (.mapIndex x y opc opd) := by
  rw [decode_of_op_one (Req.op_ofFields 1 x y opc opd), Req.opa_ofFields, Req.opb_ofFields,
    Req.opc_ofFields, Req.opd_ofFields]

namespace Machine

section
variable {p : Params} {s t : State} {x y : Word}

/-- In bounds, MAP_INDEX answers the guard and the index (R57). -/
theorem exec_mapIndex_of_inBounds (hp : legal s.params = true) (hin : inBounds s.params x y = true)
    (opc opd : Word) :
    exec (.mapIndex x y opc opd) s = .next (s.answer { Outputs.idle with
      resInBounds := some true, resIdx := some (linearIndex s.params x y) }) :=
  execMapIndex_eq_next.mpr ⟨hp, .inl ⟨hin, rfl⟩⟩

/-- Out of bounds, MAP_INDEX answers the guard alone (R57). -/
theorem exec_mapIndex_of_not_inBounds (hp : legal s.params = true)
    (hout : inBounds s.params x y = false) (opc opd : Word) :
    exec (.mapIndex x y opc opd) s =
      .next (s.answer { Outputs.idle with resInBounds := some false }) :=
  execMapIndex_eq_next.mpr ⟨hp, .inr ⟨hout, rfl⟩⟩

/-- The index port holds a value in bounds only, and there the linear index (R57). -/
theorem resIdx_eq_some_iff_of_exec_mapIndex {opc opd i : Word}
    (h : exec (.mapIndex x y opc opd) s = .next t) :
    t.out.resIdx = some i ↔ inBounds s.params x y = true ∧ linearIndex s.params x y = i := by
  obtain ⟨-, ⟨hin, rfl⟩ | ⟨hout, rfl⟩⟩ := execMapIndex_eq_next.mp h
  · simp [hin]
  · simp [hout, Outputs.idle]

/-- The pair of an index is its remainder and quotient by the width (R59). -/
theorem pixelOf_linearIndex (hp : legal p = true) (hin : inBounds p x y = true) :
    pixelOf p (linearIndex p x y).toNat = (x.toNat, y.toNat) := by
  obtain ⟨hmod, hdiv⟩ := pixel_of_index (y := y.toNat) (inBounds_iff.mp hin).1
  rw [pixelOf, toNat_linearIndex hp hin, hmod, hdiv]

/-- Different in-bounds pairs have different indices, since the index gives the pair back (R59). -/
theorem linearIndex_injective {x' y' : Word} (hp : legal p = true) (hin : inBounds p x y = true)
    (hin' : inBounds p x' y' = true) (h : linearIndex p x y = linearIndex p x' y') :
    (x, y) = (x', y') := by
  have hpair : (x.toNat, y.toNat) = (x'.toNat, y'.toNat) := by
    rw [← pixelOf_linearIndex hp hin, h, pixelOf_linearIndex hp hin']
  obtain ⟨hx, hy⟩ := Prod.mk.inj hpair
  rw [BitVec.eq_of_toNat_eq hx, BitVec.eq_of_toNat_eq hy]

/-- Every word of the image is addressed by an in-bounds pair: the grid of the image's size covers
it (R59, R81). -/
theorem exists_linearIndex_eq (hp : legal p = true) {j : Nat} (hj : j < p.width * p.height) :
    ∃ x y : Word, inBounds p x y = true ∧ (linearIndex p x y).toNat = j := by
  have hcovers : Launch.Covers p ⟨p.width, p.height, 1, ⟨0, [], 0⟩⟩ j :=
    ⟨hj, Nat.mod_lt _ (legal_iff.mp hp).1, Nat.div_lt_of_lt_mul hj, le_rfl⟩
  obtain ⟨c, -, hin, hidx⟩ := (someAddresses_gridCoords_iff hp _ j).mpr hcovers
  exact ⟨c.x, c.y, hin, hidx⟩

/-- For `W = H = 256` the guard compares the upper 24 bits with zero (R60). -/
theorem inBounds_eq_inBounds256 (hw : p.width = 256) (hh : p.height = 256) :
    inBounds p x y = inBounds256 x y := by
  have hbits : inBounds256 x y = (isChannel x && isChannel y) := rfl
  rw [hbits, Bool.eq_iff_iff, inBounds_iff, hw, hh, Bool.and_eq_true, isChannel_iff, isChannel_iff]

/-- The number that R60's concatenation stands for. -/
theorem toNat_linearIndex256 (x y : Word) :
    (linearIndex256 x y).toNat = y.toNat % 256 * 256 + x.toNat % 256 := by
  have h : (linearIndex256 x y).toNat =
      ((0 : BitVec 16) ++ y.extractLsb' 0 8 ++ x.extractLsb' 0 8 : BitVec (16 + 8 + 8)).toNat := rfl
  rw [h, toNat_append_eq, toNat_append_eq]
  simp

/-- For `W = H = 256` the index of an in-bounds pair is R60's concatenation. -/
theorem linearIndex_eq_linearIndex256 (hp : legal p = true) (hw : p.width = 256)
    (hh : p.height = 256) (hin : inBounds p x y = true) :
    linearIndex p x y = linearIndex256 x y := by
  obtain ⟨hx, hy⟩ := inBounds_iff.mp hin
  apply BitVec.eq_of_toNat_eq
  rw [toNat_linearIndex hp hin, toNat_linearIndex256, hw, Nat.mod_eq_of_lt (hh ▸ hy),
    Nat.mod_eq_of_lt (hw ▸ hx)]

end

/-- Settles O13: one case of the guard for each of R57's answers; both only drive the ports. -/
theorem mapIndexResult : Obligations.MapIndexResult := by
  intro s x y c d hp
  refine ⟨decode_ofFields_one x y c d, fun h => ?_, fun h => ?_⟩
  · have hin := inBounds_iff.mpr h
    exact ⟨_, exec_mapIndex_of_inBounds hp hin c d, rfl, rfl, rfl, _, rfl, toNat_linearIndex hp hin⟩
  · exact ⟨_, exec_mapIndex_of_not_inBounds hp (not_inBounds_iff.mpr h) c d, rfl, rfl, rfl, rfl⟩

/-- Settles O14: the index gives the pair back, so it is injective, and every word of the image is
addressed. -/
theorem indexIsBijection : Obligations.IndexIsBijection := by
  intro s hp
  refine ⟨?injective, ?range, ?surjective⟩
  case injective =>
    intro x y c d x' y' c' d' t t' hx hy hx' hy' hne h h' heq
    have hin := inBounds_iff.mpr ⟨hx, hy⟩
    have hidx := (resIdx_eq_some_iff_of_exec_mapIndex h).mpr ⟨hin, rfl⟩
    obtain ⟨hin', hidx'⟩ := (resIdx_eq_some_iff_of_exec_mapIndex h').mp (heq ▸ hidx)
    exact hne (linearIndex_injective hp hin hin' hidx'.symm)
  case range =>
    intro x y c d i t h hi
    obtain ⟨hin, rfl⟩ := (resIdx_eq_some_iff_of_exec_mapIndex h).mp hi
    obtain ⟨hx, hy⟩ := inBounds_iff.mp hin
    exact ⟨toNat_linearIndex hp hin ▸ index_lt_image hx hy, (pixelOf_linearIndex hp hin).symm⟩
  case surjective =>
    intro j hj
    obtain ⟨x, y, hin, rfl⟩ := exists_linearIndex_eq hp hj
    refine ⟨x, y, _, exec_mapIndex_of_inBounds hp hin 0 0, ?_, (pixelOf_linearIndex hp hin).symm⟩
    rw [BitVec.ofNat_toNat, BitVec.setWidth_eq]
    rfl

/-- Settles O15: `inBounds256` and `linearIndex256` are the bit selections of R60, and with this
hardware's parameters they are the guard and, in bounds, the index. -/
theorem indexRealisation256 : Obligations.IndexRealisation256 := by
  intro s x y c d hs
  have hp : legal s.params = true := by rw [hs]; decide
  have hw : s.params.width = 256 := by rw [hs]; rfl
  have hh : s.params.height = 256 := by rw [hs]; rfl
  have hguard : inBounds s.params x y = inBounds256 x y := inBounds_eq_inBounds256 hw hh
  cases hin : inBounds s.params x y
  case true =>
    exact ⟨_, exec_mapIndex_of_inBounds hp hin c d, congrArg some (hin.symm.trans hguard),
      fun _ => congrArg some (linearIndex_eq_linearIndex256 hp hw hh hin)⟩
  case false =>
    exact ⟨_, exec_mapIndex_of_not_inBounds hp hin c d, congrArg some (hin.symm.trans hguard),
      fun h => absurd h (by simp)⟩

end Machine

end Sys2Proof
end

section
/-! PROOF. SCALE: 41_linear_scaler.md rules R61 to R66. -/

namespace Sys2Proof

/-- A request with operation code 2 is SCALE of its fields (R46, R61). -/
theorem decode_ofFields_two (c d opc opd : Word) :
    decode (Req.ofFields 2 c d opc opd) = .ok (.scale c d opc opd) := by
  rw [decode_of_op_two (Req.op_ofFields 2 c d opc opd), Req.opa_ofFields, Req.opb_ofFields,
    Req.opc_ofFields, Req.opd_ofFields]

namespace Machine

section
variable {c c' d : Nat}

/-- With 256 values the quotient is the coordinate's predecessor (R64). -/
theorem toNat_scaleValue_256 (h : c < 256) : (scaleValue c 256).toNat = c - 1 := by
  rw [(toNat_scaleValue h).1]; omega

/-- The channel does not decrease with the coordinate (R66). -/
theorem scaleValue_mono (hle : c ≤ c') (hlt : c' < d) :
    (scaleValue c d).toNat ≤ (scaleValue c' d).toNat := by
  rw [(toNat_scaleValue (hle.trans_lt hlt)).1, (toNat_scaleValue hlt).1]
  exact Nat.div_le_div_right (Nat.mul_le_mul_right 255 hle)

/-- One coordinate further the product grows by 255, which is at most one divisor (R66). -/
theorem scaleValue_succ_le (hlt : c + 1 < d) (hd : 255 ≤ d) :
    (scaleValue (c + 1) d).toNat ≤ (scaleValue c d).toNat + 1 := by
  rw [(toNat_scaleValue hlt).1, (toNat_scaleValue (Nat.lt_of_succ_lt hlt)).1]
  calc (c + 1) * 255 / d ≤ (c * 255 + d) / d := Nat.div_le_div_right (by omega)
    _ = c * 255 / d + 1 := Nat.add_div_right _ (by omega)

end

section
variable {s : State}

/-- In its domain, SCALE answers the channel (R61). -/
theorem exec_scale_of_lt {c d : Word} (hp : legal s.params = true) (h : c.toNat < d.toNat)
    (opc opd : Word) :
    exec (.scale c d opc opd) s =
      .next (s.answer { Outputs.idle with resQ := some (scaleValue c.toNat d.toNat) }) :=
  execScale_eq_next.mpr ⟨hp, h, rfl⟩

/-- Outside its domain, SCALE is refused (R61, R88). -/
theorem exec_scale_of_not_lt {c d : Word} (hp : legal s.params = true) (h : ¬ c.toNat < d.toNat)
    (opc opd : Word) :
    exec (.scale c d opc opd) s = .refused .scaleOutOfDomain :=
  (whenLegal_of_legal hp _).trans (if_neg h)

/-- In bounds and with the index inside the buffer, INVOKE writes the pixel word (R71). -/
theorem exec_invoke_of_index_lt {b : PixelBuffer} {x y : Word} (hp : legal s.params = true)
    (hin : inBounds s.params x y = true) (hb : s.buf = some b)
    (hlt : (linearIndex s.params x y).toNat < b.len) (z opd : Word) :
    exec (.invoke x y z opd) s =
      .next (s.memWrite b (linearIndex s.params x y) (pixelWord s.params x.toNat y.toNat)) :=
  execInvoke_eq_next.mpr ⟨hp, .inr ⟨hin, b, hb, .inl ⟨hlt, rfl⟩⟩⟩

end

/-- The two low lanes of a pixel word are the channels of its coordinates (R68, R79). -/
theorem lane_pixelWord (p : Params) (x y : Nat) :
    lane (pixelWord p x y) 0 = scaleValue x p.width ∧
      lane (pixelWord p x y) 1 = scaleValue y p.height := by
  obtain ⟨hred, hgreen, -, -⟩ := lane_packWord (scaleValue x p.width) (scaleValue y p.height)
    (BitVec.ofNat 8 p.bValue) (BitVec.ofNat 8 p.aValue)
  exact ⟨hred, hgreen⟩

/-- Settles O16: `c < d` is the only question SCALE asks; the channel holds the exact quotient. -/
theorem scaleResult : Obligations.ScaleResult := by
  intro s c d e f hp
  refine ⟨decode_ofFields_two c d e f, fun h => ?_, fun h => exec_scale_of_not_lt hp h e f⟩
  exact ⟨_, exec_scale_of_lt hp h e f, rfl, rfl, _, rfl, (toNat_scaleValue h).1⟩

/-- Settles O17: in the domain the channel is the quotient, and `c < d` bounds it. -/
theorem scaleAtMost254 : Obligations.ScaleAtMost254 := by
  intro s c d e f hp h
  obtain ⟨hexact, hbound⟩ := toNat_scaleValue h
  exact ⟨_, _, exec_scale_of_lt hp h e f, rfl, hexact ▸ hbound⟩

/-- Settles O18: the quotient by 256 is the predecessor, and the red and green lanes of the word an
in-bounds INVOKE writes are such quotients. -/
theorem scaleClosedForm256 : Obligations.ScaleClosedForm256 := by
  refine ⟨?scale, ?invoke⟩
  case scale =>
    intro s c e f hp hc
    have hlt : c.toNat < (256 : Word).toNat := Nat.lt_succ_of_le hc
    refine ⟨_, _, exec_scale_of_lt hp hlt e f, rfl, toNat_scaleValue_256 hlt, ?_⟩
    rw [Nat.shiftRight_eq_div_pow]
    exact (toNat_scaleValue hlt).1
  case invoke =>
    intro s b x y z d hs hb hlen hx hy
    have hp : legal s.params = true := by rw [hs]; decide
    have hw : s.params.width = 256 := by rw [hs]; rfl
    have hh : s.params.height = 256 := by rw [hs]; rfl
    have hin : inBounds s.params x y = true := inBounds_iff.mpr ⟨hw ▸ hx, hh ▸ hy⟩
    have hidx : (linearIndex s.params x y).toNat < b.len := by
      rw [toNat_linearIndex hp hin, hw]; omega
    obtain ⟨hred, hgreen⟩ := lane_pixelWord s.params x.toNat y.toNat
    rw [hw] at hred
    rw [hh] at hgreen
    exact ⟨_, _, exec_invoke_of_index_lt hp hin hb hidx z d, rfl,
      (congrArg BitVec.toNat hred).trans (toNat_scaleValue_256 hx),
      (congrArg BitVec.toNat hgreen).trans (toNat_scaleValue_256 hy)⟩

/-- Settles O19: both coordinates are in the domain, and the quotient is monotone and, where 255 is at
most the divisor, steps by at most 1. -/
theorem scaleIsMonotone : Obligations.ScaleIsMonotone := by
  intro s c c' d e f hp hle hlt
  refine ⟨_, _, _, _, exec_scale_of_lt hp (hle.trans_lt hlt) e f, exec_scale_of_lt hp hlt e f,
    rfl, rfl, scaleValue_mono hle hlt, fun hsucc hd => ?_⟩
  rw [hsucc] at hlt ⊢
  exact scaleValue_succ_le hlt hd

end Machine

end Sys2Proof
end

section
/-! PROOF. PACK: 42_rgba8_packer.md rules R67 to R69. -/

namespace Sys2Proof

/-- PACK's operand check, in the words of R67. -/
theorem isChannel_all_iff {r g b a : Word} :
    (isChannel r && isChannel g && isChannel b && isChannel a) = true ↔
      r.toNat < 256 ∧ g.toNat < 256 ∧ b.toNat < 256 ∧ a.toNat < 256 := by
  simp only [Bool.and_eq_true, isChannel_iff, and_assoc]

/-- A request with operation code 3 is PACK of its fields, or invalid, by their check (R46, R67). -/
theorem decode_ofFields_three (r g b a : Word) :
    decode (Req.ofFields 3 r g b a) =
      if isChannel r && isChannel g && isChannel b && isChannel a then .ok (.pack r g b a)
      else .error .packOperandWidth := by
  rw [decode_of_op_three (Req.op_ofFields 3 r g b a), Req.opa_ofFields, Req.opb_ofFields,
    Req.opc_ofFields, Req.opd_ofFields]

namespace Machine

section
variable {s : State} {r g b a : Word}

/-- With channel operands, PACK answers the packed word of their channels (R67). -/
theorem exec_pack_of_channels (hp : legal s.params = true)
    (h : (isChannel r && isChannel g && isChannel b && isChannel a) = true) :
    exec (.pack r g b a) s = .next (s.answer { Outputs.idle with
      resWord := some (packWord (channelOf r) (channelOf g) (channelOf b) (channelOf a)) }) :=
  execPack_eq_next.mpr ⟨hp, h, rfl⟩

/-- With an operand that is no channel, PACK is refused (R67, R88). -/
theorem exec_pack_of_wide (hp : legal s.params = true)
    (h : ¬ (isChannel r && isChannel g && isChannel b && isChannel a) = true) :
    exec (.pack r g b a) s = .refused .packOperandWidth :=
  (whenLegal_of_legal hp _).trans (if_neg h)

/-- PACK of four zero-extended channels answers their packed word (R67). -/
theorem exec_pack_setWidth (hp : legal s.params = true) (r g b a : Channel) :
    exec (.pack (r.setWidth 32) (g.setWidth 32) (b.setWidth 32) (a.setWidth 32)) s =
      .next (s.answer { Outputs.idle with resWord := some (packWord r g b a) }) := by
  rw [exec_pack_of_channels hp (by simp only [isChannel_setWidth, Bool.and_self])]
  simp only [channelOf_setWidth]

/-- An operand below 256 is its channel, zero-extended (R47). -/
theorem setWidth_channelOf {v : Word} (h : v.toNat < 256) : (channelOf v).setWidth 32 = v := by
  apply BitVec.eq_of_toNat_eq
  simp only [channelOf, BitVec.toNat_setWidth, BitVec.extractLsb'_toNat, Nat.shiftRight_zero]
  omega

/-- Where no operand has a bit above bit 7, the packed word is R67's shifts of the operands. -/
theorem packWord_channelOf (hr : r.toNat < 256) (hg : g.toNat < 256) (hb : b.toNat < 256)
    (ha : a.toNat < 256) :
    packWord (channelOf r) (channelOf g) (channelOf b) (channelOf a) =
      (a <<< 24) ||| (b <<< 16) ||| (g <<< 8) ||| r := by
  rw [packWord, setWidth_channelOf hr, setWidth_channelOf hg, setWidth_channelOf hb,
    setWidth_channelOf ha]

end

/-- The lanes of a word pack back to the word (R69). -/
theorem packWord_lane (w : Word) : packWord (lane w 0) (lane w 1) (lane w 2) (lane w 3) = w := by
  apply BitVec.eq_of_toNat_eq
  simp only [toNat_packWord, lane, BitVec.extractLsb'_toNat, Nat.shiftRight_eq_div_pow]
  omega

/-- Different channels have different packed words, since the lanes give the channels back (R69). -/
theorem packWord_injective {r g b a r' g' b' a' : Channel}
    (h : packWord r g b a = packWord r' g' b' a') : r = r' ∧ g = g' ∧ b = b' ∧ a = a' := by
  obtain ⟨hr, hg, hb, ha⟩ := lane_packWord r g b a
  obtain ⟨hr', hg', hb', ha'⟩ := lane_packWord r' g' b' a'
  rw [h] at hr hg hb ha
  exact ⟨hr.symm.trans hr', hg.symm.trans hg', hb.symm.trans hb', ha.symm.trans ha'⟩

/-- Settles O20: decoding and the operation ask the same question of the four operands, and where
they are channels only the ports are driven. -/
theorem packResult : Obligations.PackResult := by
  intro s r g b a hp
  refine ⟨fun h => ?channels, fun h => ?wide⟩
  case channels =>
    have hch := isChannel_all_iff.mpr h
    obtain ⟨hr, hg, hb, ha⟩ := h
    exact ⟨(decode_ofFields_three r g b a).trans (if_pos hch), _, exec_pack_of_channels hp hch,
      rfl, rfl, congrArg some (packWord_channelOf hr hg hb ha)⟩
  case wide =>
    have hwide := mt isChannel_all_iff.mp h
    exact ⟨(decode_ofFields_three r g b a).trans (if_neg hwide), exec_pack_of_wide hp hwide⟩

/-- Settles O21: PACK answers the packed word, whose lanes are the channels. -/
theorem packLanes : Obligations.PackLanes := fun _ r g b a hp =>
  ⟨_, _, exec_pack_setWidth hp r g b a, rfl, lane_packWord r g b a⟩

/-- Settles O22: a word is the packing of its lanes, and a packed word gives its channels back. -/
theorem packIsBijection : Obligations.PackIsBijection := by
  intro s hp
  refine ⟨?surjective, ?injective⟩
  case surjective =>
    intro w
    exact ⟨_, exec_pack_setWidth hp (lane w 0) (lane w 1) (lane w 2) (lane w 3),
      congrArg some (packWord_lane w)⟩
  case injective =>
    intro r g b a r' g' b' a' t t' h h' heq
    obtain rfl := Host.Outcome.next.inj ((exec_pack_setWidth hp r g b a).symm.trans h)
    obtain rfl := Host.Outcome.next.inj ((exec_pack_setWidth hp r' g' b' a').symm.trans h')
    exact packWord_injective (Option.some.inj heq)

end Machine

end Sys2Proof
end

section
/-! PROOF. INVOKE: 43_gradient_kernel.md rules R71, R75 and R79. -/

namespace Sys2Proof

/-- A request with operation code 0 is INVOKE of its fields (R46, R71). -/
theorem decode_ofFields_zero (x y z opd : Word) :
    decode (Req.ofFields 0 x y z opd) = .ok (.invoke x y z opd) := by
  rw [decode_of_op_zero (Req.op_ofFields 0 x y z opd), Req.opa_ofFields, Req.opb_ofFields,
    Req.opc_ofFields, Req.opd_ofFields]

namespace Machine

section
variable {p : Params} {x y : Nat}

/-- A channel shifted to a lane of a word loses no bit (R67). -/
theorem toNat_setWidth_shiftLeft (c : Channel) {k : Nat} (hk : k ≤ 24) :
    (c.setWidth 32 <<< k).toNat = c.toNat <<< k := by
  have hc : c.toNat < 2 ^ 8 := c.isLt
  have hfit : c.toNat <<< k < 2 ^ 32 := by
    rw [Nat.shiftLeft_eq]
    calc c.toNat * 2 ^ k < 2 ^ 8 * 2 ^ k := Nat.mul_lt_mul_of_pos_right hc (Nat.two_pow_pos k)
      _ ≤ 2 ^ 8 * 2 ^ 24 := Nat.mul_le_mul_left _ (Nat.pow_le_pow_right two_pos hk)
      _ = 2 ^ 32 := rfl
  rw [BitVec.toNat_shiftLeft, BitVec.toNat_setWidth, Nat.mod_eq_of_lt (by omega : c.toNat < 2 ^ 32),
    Nat.mod_eq_of_lt hfit]

/-- The packed word as a number, in the shifts of R67. -/
theorem toNat_packWord_or (r g b a : Channel) :
    (packWord r g b a).toNat =
      (a.toNat <<< 24) ||| (b.toNat <<< 16) ||| (g.toNat <<< 8) ||| r.toNat := by
  have hr : (r.setWidth 32).toNat = r.toNat := BitVec.toNat_setWidth_of_le (by omega)
  simp only [packWord, BitVec.toNat_or, hr, toNat_setWidth_shiftLeft, Nat.reduceLeDiff]

/-- The pixel word as a number, in the shifts of R79. -/
theorem toNat_pixelWord_or (hp : legal p = true) (hx : x < p.width) (hy : y < p.height) :
    (pixelWord p x y).toNat = (p.aValue <<< 24) ||| (p.bValue <<< 16) |||
      ((y * 255 / p.height) <<< 8) ||| (x * 255 / p.width) := by
  obtain ⟨-, -, -, -, -, hB, hA⟩ := legal_iff.mp hp
  have hb : (BitVec.ofNat 8 p.bValue).toNat = p.bValue := Nat.mod_eq_of_lt (by omega)
  have ha : (BitVec.ofNat 8 p.aValue).toNat = p.aValue := Nat.mod_eq_of_lt (by omega)
  rw [pixelWord, toNat_packWord_or, (toNat_scaleValue hx).1, (toNat_scaleValue hy).1, hb, ha]

/-- This hardware's pixel word: the constant lanes and the predecessors of the coordinates (R79). -/
theorem toNat_pixelWord_thisHardware (hx : x < 256) (hy : y < 256) :
    (pixelWord Params.thisHardware x y).toNat =
      0xFF800000 ||| ((y - 1) <<< 8) ||| (x - 1) := by
  calc (pixelWord Params.thisHardware x y).toNat
      = (255 <<< 24) ||| (128 <<< 16) ||| ((scaleValue y 256).toNat <<< 8) |||
          (scaleValue x 256).toNat := toNat_packWord_or _ _ _ _
    _ = _ := by rw [toNat_scaleValue_256 hx, toNat_scaleValue_256 hy]; rfl

end

section
variable {s t : State} {b : PixelBuffer} {x y : Word}

/-- Out of bounds, INVOKE does nothing, whatever the buffer (R71, R72). -/
theorem exec_invoke_of_not_inBounds (hp : legal s.params = true)
    (hout : inBounds s.params x y = false) (z opd : Word) :
    exec (.invoke x y z opd) s = .next (s.answer Outputs.idle) :=
  execInvoke_eq_next.mpr ⟨hp, .inl ⟨hout, rfl⟩⟩

/-- In bounds and with the index past the buffer, INVOKE records the fault (R71, R86). -/
theorem exec_invoke_of_len_le (hp : legal s.params = true) (hin : inBounds s.params x y = true)
    (hb : s.buf = some b) (hle : b.len ≤ (linearIndex s.params x y).toNat) (z opd : Word) :
    exec (.invoke x y z opd) s = .next (s.raiseFault .bufferTooSmall { x := x, y := y, z := z }
      (linearIndex s.params x y)) :=
  execInvoke_eq_next.mpr ⟨hp, .inr ⟨hin, b, hb, .inr ⟨hle, rfl⟩⟩⟩

/-- Over a buffer of the image's size, an in-bounds INVOKE writes the pixel word (R79). -/
theorem exec_invoke_of_image_le (hp : legal s.params = true) (hin : inBounds s.params x y = true)
    (hb : s.buf = some b) (hlen : s.params.width * s.params.height ≤ b.len) (z opd : Word) :
    exec (.invoke x y z opd) s =
        .next (s.memWrite b (linearIndex s.params x y) (pixelWord s.params x.toNat y.toNat)) ∧
      (b.write (linearIndex s.params x y).toNat (pixelWord s.params x.toNat y.toNat)).word
        (y.toNat * s.params.width + x.toNat) = pixelWord s.params x.toNat y.toNat := by
  obtain ⟨hx, hy⟩ := inBounds_iff.mp hin
  have hidx := toNat_linearIndex hp hin
  have hlt : (linearIndex s.params x y).toNat < b.len :=
    hidx ▸ (index_lt_image hx hy).trans_le hlen
  exact ⟨exec_invoke_of_index_lt hp hin hb hlt z opd, hidx ▸ PixelBuffer.word_write_same hlt _⟩

/-- What an INVOKE that wrote shows at the memory port is formed from the coordinates and the
parameters (R74, R75). -/
theorem memPort_of_exec_invoke {z opd : Word} (h : exec (.invoke x y z opd) s = .next t)
    (hwe : t.out.memWe = true) :
    t.out.memIdx = some (linearIndex s.params x y) ∧
      t.out.memWdata = some (pixelWord s.params x.toNat y.toNat) := by
  obtain ⟨-, ⟨-, rfl⟩ | ⟨-, b, -, ⟨-, rfl⟩ | ⟨-, rfl⟩⟩⟩ := execInvoke_eq_next.mp h
  · exact absurd hwe Bool.false_ne_true
  · exact ⟨rfl, rfl⟩
  · exact absurd hwe Bool.false_ne_true

end

/-- Settles O25: INVOKE's three outcomes, by the guard and then by the index against `BUF_LEN`; in
bounds the index and the word are exact. -/
theorem invokeResult : Obligations.InvokeResult := by
  intro s x y z d hp
  refine ⟨decode_ofFields_zero x y z d, fun hout => ?outOfBounds, fun b hb hx hy => ?inBounds⟩
  case outOfBounds =>
    have hguard : inBounds s.params x y = false := not_inBounds_iff.mpr (by omega)
    exact ⟨_, exec_invoke_of_not_inBounds hp hguard z d, rfl, rfl⟩
  case inBounds =>
    have hin := inBounds_iff.mpr ⟨hx, hy⟩
    refine ⟨linearIndex s.params x y, pixelWord s.params x.toNat y.toNat, toNat_linearIndex hp hin,
      toNat_pixelWord_or hp hx hy, fun hlt => ?write, fun hle => ?fault⟩
    case write =>
      exact ⟨_, exec_invoke_of_index_lt hp hin hb hlt z d, rfl, rfl, rfl, rfl, rfl⟩
    case fault =>
      exact ⟨_, exec_invoke_of_len_le hp hin hb hle z d, rfl, rfl,
        fun r => mem_insertFault.trans or_comm⟩

/-- Settles O27: the index is inside the image, so the pixel word is written there and read back. -/
theorem invokeWritesPixelWord : Obligations.InvokeWritesPixelWord := by
  intro s b x y z d hp hb hlen hx hy
  obtain ⟨hexec, hword⟩ := exec_invoke_of_image_le hp (inBounds_iff.mpr ⟨hx, hy⟩) hb hlen z d
  refine ⟨_, _, hexec, rfl, ?general, fun hs => ?thisHardware⟩
  case general => rw [hword, toNat_pixelWord_or hp hx hy]
  case thisHardware =>
    rw [hs] at hx hy hword ⊢
    exact (congrArg BitVec.toNat hword).trans (toNat_pixelWord_thisHardware hx hy)

/-- Settles O28: both invocations show the index and the word of the one `(x, y)` and parameters. -/
theorem invokeIsPure : Obligations.InvokeIsPure := by
  intro s s' t t' x y z d z' d' hparams h h' hwe hwe'
  obtain ⟨hidx, hword⟩ := memPort_of_exec_invoke h hwe
  obtain ⟨hidx', hword'⟩ := memPort_of_exec_invoke h' hwe'
  rw [hidx, hword, hidx', hword', hparams]
  exact ⟨rfl, rfl⟩

end Machine

end Sys2Proof
end

section
/-! PROOF. The fault BufferTooSmall: 60_exceptions.md rule R86. -/

namespace Sys2Proof.Machine

section
variable {s t : State} {r : FaultRecord}

/-- A fault that an INVOKE adds is the one of its coordinates over the bound buffer (R86). -/
theorem faults_of_exec_invoke_new {x y z opd : Word} (h : exec (.invoke x y z opd) s = .next t)
    (hmem : r ∈ t.faults) (hnew : r ∉ s.faults) :
    legal s.params = true ∧ ∃ b, s.buf = some b ∧ Coord.Faults s.params b.len ⟨x, y, z⟩ r := by
  obtain ⟨hp, ⟨-, rfl⟩ | ⟨hin, b, hb, ⟨-, rfl⟩ | ⟨hle, rfl⟩⟩⟩ := execInvoke_eq_next.mp h
  case inl => exact absurd hmem hnew
  case inr.inl => exact absurd hmem hnew
  case inr.inr =>
    have hr := (mem_insertFault.mp hmem).resolve_right hnew
    exact ⟨hp, b, hb, hin, hle, hr⟩

/-- No operation but INVOKE adds a fault (R23, R86). -/
theorem exists_invoke_of_new_fault {i : Instr} (h : exec i s = .next t) (hmem : r ∈ t.faults)
    (hnew : r ∉ s.faults) : ∃ x y z opd, i = .invoke x y z opd := by
  by_contra hnone
  have hi : ∀ x y z opd, i ≠ .invoke x y z opd := fun x y z opd hi => hnone ⟨x, y, z, opd, hi⟩
  obtain ⟨-, hfaults⟩ := exec_subunit_frame hi h
  exact hnew (hfaults ▸ hmem)

/-- The condition and the record of an invocation's fault, in the words of R86. -/
theorem Coord.Faults.condition_and_record {p : Params} {len : Nat} {x : Coord}
    (hp : legal p = true) (h : x.Faults p len r) :
    x.x.toNat < p.width ∧ x.y.toNat < p.height ∧ len ≤ x.y.toNat * p.width + x.x.toNat ∧
      r.reason = .bufferTooSmall ∧ r.coord = x ∧
      r.info.toNat = x.y.toNat * p.width + x.x.toNat := by
  obtain ⟨hin, hle, rfl⟩ := h
  obtain ⟨hx, hy⟩ := inBounds_iff.mp hin
  have hidx := toNat_linearIndex hp hin
  exact ⟨hx, hy, hidx ▸ hle, rfl, rfl, hidx⟩

end

/-- Settles O34: a new fault comes from an INVOKE whose coordinates meet R86's condition, and where
they meet it the INVOKE adds that record. -/
theorem bufferTooSmallCondition : Obligations.BufferTooSmallCondition := by
  refine ⟨rfl, fun i s t r h hmem hnew => ?onlyThen, fun s b x y z d hp hb hx hy hle => ?always⟩
  case onlyThen =>
    obtain ⟨x, y, z, d, rfl⟩ := exists_invoke_of_new_fault h hmem hnew
    obtain ⟨hp, b, hb, hfault⟩ := faults_of_exec_invoke_new h hmem hnew
    exact ⟨x, y, z, d, b, rfl, hb, hfault.condition_and_record hp⟩
  case always =>
    have hin := inBounds_iff.mpr ⟨hx, hy⟩
    have hidx := toNat_linearIndex hp hin
    exact ⟨_, _, exec_invoke_of_len_le hp hin hb (hidx.symm ▸ hle) z d,
      mem_insertFault.mpr (.inl rfl), rfl, rfl, hidx⟩

end Sys2Proof.Machine
end

section
/-! PROOF. Reset between dispatches, completion and redispatch: 70_reset_and_hazards.md rules R99,
R107 and R109. -/

namespace Sys2Proof.Machine

section
variable {p : Params} {b c : PixelBuffer} {grid done : List Coord} {s : State}

/-- Over a buffer of the image's size a dispatch records no fault (R86, R102). -/
theorem Progress.faults_eq_nil (hp : legal p = true) (h : Progress p b grid done s c)
    (himage : p.width * p.height ≤ b.len) : s.faults = [] := by
  refine List.eq_nil_iff_forall_not_mem.mpr fun r hr => ?_
  obtain ⟨x, -, hx⟩ := (h.faults r).mp hr
  exact Coord.not_faults_of_image_le hp himage hx

/-- A dispatch changes no word where each word it writes held its pixel word before (R32, R107). -/
theorem Progress.word_eq_of_pixelWordAt (h : Progress p b grid done s c) {j : Nat} (hj : j < b.len)
    (hold : SomeAddresses p done j → b.word j = pixelWordAt p j) : c.word j = b.word j := by
  obtain ⟨hdone, hkept⟩ := h.words j hj
  by_cases hadr : SomeAddresses p done j
  · exact (hdone hadr).trans (hold hadr).symm
  · exact hkept hadr

end

/-- Settles O41: the launch makes the whole grid pending, and each step after it runs one of
them. -/
theorem dispatchCompletes : Obligations.DispatchCompletes := by
  intro s b gx gy gz ks n hp hb hpend hgx hgy hgz hi hn
  obtain ⟨t, _, _, hrun, hleft, -⟩ := run_dispatch hp hb hpend hgx hgy hgz hi hn
  exact ⟨t, hrun, hleft⟩

/-- Settles O43: each word that the dispatch writes held its pixel word before, as a word of the
complete image or because the first dispatch wrote it. -/
theorem redispatchChangesNothing : Obligations.RedispatchChangesNothing := by
  refine ⟨?completeImage, ?ownOutput⟩
  case completeImage =>
    intro s b gx gy gz ks hp hb hpend hgx hgy hgz hi himage hwords
    obtain ⟨t, c, hrun, hdone, h⟩ := run_dispatch_complete hp hb hpend hgx hgy hgz hi
    exact ⟨t, c, hrun, hdone, h.faults_eq_nil hp himage, h.buf, h.same_len, fun j hj =>
      h.word_eq_of_pixelWordAt hj fun ⟨_, _, hx⟩ => hwords j (hx.lt_image hp)⟩
  case ownOutput =>
    rintro s _ t t' b c c' gx gy gz ks ks' hp hb hpend hgx hgy hgz hi hrun rfl hrun' - - hc hc' j hj
    obtain ⟨u, d, hu, hdone, h⟩ := run_dispatch_complete hp hb hpend hgx hgy hgz hi
    obtain rfl : u = t := Host.Outcome.next.inj (hu.symm.trans hrun)
    obtain rfl : d = c := Option.some.inj (h.buf.symm.trans hc)
    obtain ⟨u', d', hu', -, h'⟩ := run_dispatch_complete
      (s := { u with inputs := .dispatch gx gy gz :: ks'.map .pick })
      (h.params.symm ▸ hp) hc hdone hgx hgy hgz rfl
    obtain rfl : u' = t' := Host.Outcome.next.inj (hu'.symm.trans hrun')
    obtain rfl : d' = c' := Option.some.inj (h'.buf.symm.trans hc')
    rw [h.params] at h'
    exact h'.word_eq_of_pixelWordAt (h.same_len.symm ▸ hj) (h.words j hj).1

/-- Settles O51: a reset does not wait and, with nothing pending, leaves the buffer, so an INVOKE
after it has the parameters and the buffer it needs. -/
theorem resetBetweenDispatches : Obligations.ResetBetweenDispatches := by
  intro s rest hpend hi
  have hstep : step s = .next (applyReset { s with inputs := rest }) :=
    step_of_inputs_cons hi (.inl hpend)
  have hbuf : (applyReset { s with inputs := rest }).buf = s.buf := applyReset_buf_of_complete hpend
  refine ⟨_, hstep, applyReset_pending _, applyReset_faults _, hbuf, applyReset_params _,
    applyReset_inputs _, fun hp hbound x y z d => ?ready⟩
  case ready =>
    obtain ⟨b, hb⟩ := Option.ne_none_iff_exists'.mp hbound
    have hp' : legal (applyReset { s with inputs := rest }).params = true := by
      rwa [applyReset_params]
    obtain ⟨u, _, hexec, -⟩ := exec_invoke_effect hp' (hbuf.trans hb) x y z d
    exact ⟨u, hexec⟩

end Sys2Proof.Machine
end

section
/-! PROOF. Decoding and encoding are inverse: 30_encoding.md rules R45 to R47, R52 and R56. -/

namespace Sys2Proof

/-- `PACK`'s operand check is its well-formedness (R52). -/
theorem wellFormed_pack_iff {r g b a : Word} :
    (Instr.pack r g b a).wellFormed = true ↔
      (isChannel r && isChannel g && isChannel b && isChannel a) = true := by
  rw [isChannel_all_iff]
  simp only [Instr.wellFormed, Bool.and_eq_true, decide_eq_true_eq, and_assoc]

/-- Settles O4: each operation's code selects its arm of the decoder, and the four fields come back;
well-formedness is what `PACK`'s operand check asks. -/
theorem decodeEncodeRoundTrip : Obligations.DecodeEncodeRoundTrip := by
  intro i hwf
  cases i with
  | invoke x y z opd => exact decode_ofFields_zero x y z opd
  | mapIndex x y opc opd => exact decode_ofFields_one x y opc opd
  | scale c d opc opd => exact decode_ofFields_two c d opc opd
  | pack r g b a =>
    exact (decode_ofFields_three r g b a).trans (if_pos (wellFormed_pack_iff.mp hwf))

/-- The request with `q`'s own code and four operand fields is `q` (R45). -/
theorem Req.ofFields_of_op {q : Req} {op : BitVec 2} (h : q.op = op) :
    Req.ofFields op q.opa q.opb q.opc q.opd = q := by
  rw [← h, Req.ofFields_fields]

/-- Settles O5: the code of the request says which arm answered, so the instruction holds all five
fields of the request; only `PACK`'s arm asks for well-formedness, and it checked it. -/
theorem encodeDecodeRoundTrip : Obligations.EncodeDecodeRoundTrip := by
  intro q i h
  rcases opCode_cases q.op with hop | hop | hop | hop
  · obtain rfl := Except.ok.inj ((decode_of_op_zero hop).symm.trans h)
    exact ⟨rfl, Req.ofFields_of_op hop⟩
  · obtain rfl := Except.ok.inj ((decode_of_op_one hop).symm.trans h)
    exact ⟨rfl, Req.ofFields_of_op hop⟩
  · obtain rfl := Except.ok.inj ((decode_of_op_two hop).symm.trans h)
    exact ⟨rfl, Req.ofFields_of_op hop⟩
  · rw [decode_of_op_three hop] at h
    split at h
    case isTrue hch =>
      obtain rfl := Except.ok.inj h
      exact ⟨wellFormed_pack_iff.mpr hch, Req.ofFields_of_op hop⟩
    case isFalse => exact nomatch h

/-- Settles O1: the decoder run on the six words. -/
theorem specRequestWordsDecode : Obligations.SpecRequestWordsDecode := by
  unfold Obligations.SpecRequestWordsDecode
  decide

end Sys2Proof
end

section
/-! PROOF. What one operation and one step of the machine can do, said once: 10_state.md rule R10,
43_gradient_kernel.md rules R71 and R80, 60_exceptions.md rule R87,
70_reset_and_hazards.md rule R103. -/

namespace Sys2Proof.Machine

/-- What an operation that completes in `s` can do to the buffer and to the fault set (R23, R71). -/
inductive ExecEffect (s t : State) : Prop
  /-- It changes neither. -/
  | portsOnly (hbuf : t.buf = s.buf) (hfaults : t.faults = s.faults)
  /-- It writes the word of one pixel. -/
  | write (b : PixelBuffer) (x : Coord) (j : Nat) (hb : s.buf = some b)
      (hadr : x.Addresses s.params j)
      (hbuf : t.buf = some (b.write j (pixelWord s.params x.x.toNat x.y.toNat)))
      (hfaults : t.faults = s.faults)
  /-- It records one fault. -/
  | fault (b : PixelBuffer) (x : Coord) (r : FaultRecord) (hb : s.buf = some b)
      (hfault : x.Faults s.params b.len r) (hbuf : t.buf = s.buf)
      (hfaults : t.faults = insertFault r s.faults)

theorem execEffect_of_exec {i : Instr} {s t : State} (h : exec i s = .next t) : ExecEffect s t := by
  by_cases hi : ∃ x y z d, i = .invoke x y z d
  · obtain ⟨x, y, z, d, rfl⟩ := hi
    obtain ⟨-, ⟨-, rfl⟩ | ⟨hin, b, hb, ⟨-, rfl⟩ | ⟨hle, rfl⟩⟩⟩ := execInvoke_eq_next.mp h
    · exact .portsOnly rfl rfl
    · exact .write b ⟨x, y, z⟩ _ hb ⟨hin, rfl⟩ rfl rfl
    · exact .fault b ⟨x, y, z⟩ _ hb ⟨hin, hle, rfl⟩ rfl rfl
  · obtain ⟨hbuf, hfaults⟩ := exec_subunit_frame (fun x y z d hi' => hi ⟨x, y, z, d, hi'⟩) h
    exact .portsOnly hbuf hfaults

section
variable {s t : State}

/-- No operation completes under illegal parameters (R6). -/
theorem legal_of_exec {i : Instr} (h : exec i s = .next t) : legal s.params = true := by
  cases i with
  | invoke x y z d => exact (execInvoke_eq_next.mp h).1
  | mapIndex x y c d => exact (execMapIndex_eq_next.mp h).1
  | scale c d e f => exact (execScale_eq_next.mp h).1
  | pack r g b a => exact (execPack_eq_next.mp h).1

/-- No operation drops a recorded fault (R87). -/
theorem ExecEffect.keeps_faults (h : ExecEffect s t) {r : FaultRecord} (hr : r ∈ s.faults) :
    r ∈ t.faults := by
  cases h with
  | portsOnly _ hfaults => exact hfaults ▸ hr
  | write _ _ _ _ _ _ hfaults => exact hfaults ▸ hr
  | fault _ _ _ _ _ _ hfaults => rw [hfaults]; exact mem_insertFault.mpr (.inr hr)

/-- No operation resizes, replaces or unbinds the buffer (R19). -/
theorem ExecEffect.keeps_len_id (h : ExecEffect s t) {b : PixelBuffer} (hb : s.buf = some b) :
    ∃ b', t.buf = some b' ∧ b'.len = b.len ∧ b'.id = b.id := by
  cases h with
  | portsOnly hbuf _ => exact ⟨b, hbuf.trans hb, rfl, rfl⟩
  | write c x j hc _ hbuf _ =>
    obtain rfl := Option.some.inj (hb.symm.trans hc)
    exact ⟨_, hbuf, PixelBuffer.write_len .., PixelBuffer.write_id ..⟩
  | fault _ _ _ _ _ hbuf _ => exact ⟨b, hbuf.trans hb, rfl, rfl⟩

end

/-- What one step can do that completes in the state `t` (R10, R103). -/
inductive StepEffect (s : State) : State → Prop
  /-- Nothing that a dispatch knows of: the block waits, or the host reads. -/
  | quiet (data : Option Word) (inputs : List HostMove) (draws : Nat) :
      StepEffect s { s with readData := data, inputs := inputs, draws := draws }
  /-- One pending invocation takes its step. -/
  | invocation {t : State} (k : Nat) (hk : k < s.pending.length) (inputs : List HostMove)
      (draws : Nat) (h : exec s.pending[k].instr { s with
        pending := s.pending.eraseIdx k, inputs := inputs, draws := draws } = .next t) :
      StepEffect s t
  /-- One request is executed. -/
  | request {t : State} (hp : s.pending = []) (i : Instr) (inputs : List HostMove)
      (h : exec i { s with inputs := inputs, launch := none } = .next t) : StepEffect s t
  /-- The host binds a buffer. -/
  | bind (hp : s.pending = []) (len : Nat) (init : Memory) (inputs : List HostMove) :
      StepEffect s (bindBuffer len init { s with inputs := inputs })
  /-- The host takes its buffer back. -/
  | release (hp : s.pending = []) (inputs : List HostMove) :
      StepEffect s (releaseBuffer { s with inputs := inputs })
  /-- A grid is launched. -/
  | launch {t : State} (hp : s.pending = []) (gx gy gz : Nat) (inputs : List HostMove)
      (h : launchGrid gx gy gz { s with inputs := inputs } = .next t) : StepEffect s t
  /-- The host asserts reset. -/
  | reset (inputs : List HostMove) (hi : s.inputs = .reset :: inputs) :
      StepEffect s (applyReset { s with inputs := inputs })

section
variable {s t : State}

/-- A host read changes what the host got back, and the count of free values (R37, R38). -/
theorem hostRead_eq_next {j : Nat} (h : hostRead j s = .next t) :
    ∃ data draws, t = { s with readData := data, draws := draws } := by
  unfold hostRead at h
  split at h
  · cases h
  · split at h
    · split at h
      · obtain rfl := Host.Outcome.next.inj h; exact ⟨_, _, rfl⟩
      · obtain rfl := Host.Outcome.next.inj h; exact ⟨_, s.draws, rfl⟩
    · cases h

theorem serveRequest_eq_next {q : Req} (h : serveRequest q s = .next t) :
    ∃ i, decode q = .ok i ∧ exec i { s with launch := none } = .next t := by
  unfold serveRequest at h
  split at h
  · exact ⟨_, ‹_›, h⟩
  · cases h

/-- Where an invocation is pending, the dispatcher's choice is a step of one. -/
theorem StepEffect.of_runPending (hp : s.pending ≠ []) {k draws : Nat} {inputs : List HostMove}
    (h : runPending k { s with inputs := inputs, draws := draws } = .next t) : StepEffect s t := by
  obtain ⟨_, hk, rfl, -, hrun⟩ :=
    runPending_of_pending (s := { s with inputs := inputs, draws := draws }) hp k
  exact .invocation _ hk inputs draws (hrun.symm.trans h)

/-- The step's effect where the host's move takes place. -/
theorem StepEffect.of_serve {m : HostMove} {rest : List HostMove} (hi : s.inputs = m :: rest)
    (hm : s.pending = [] ∨ m.waits = false) (h : serve m { s with inputs := rest } = .next t) :
    StepEffect s t := by
  have complete (hw : m.waits = true) : s.pending = [] := by simpa [hw] using hm
  cases m with
  | request q =>
    obtain ⟨i, -, hexec⟩ := serveRequest_eq_next h
    exact .request (complete rfl) i rest hexec
  | bind len init =>
    obtain rfl := Host.Outcome.next.inj h
    exact .bind (complete rfl) len init rest
  | release =>
    obtain rfl := Host.Outcome.next.inj h
    exact .release (complete rfl) rest
  | dispatch gx gy gz => exact .launch (complete rfl) gx gy gz rest h
  | dispatchTiles tx ty => exact .launch (complete rfl) _ _ 1 rest h
  | pick k =>
    by_cases hp : s.pending = []
    · have hrun := runPending_of_complete (s := { s with inputs := rest }) hp k
      obtain rfl := Host.Outcome.next.inj (hrun.symm.trans h)
      exact .quiet s.readData rest s.draws
    · exact .of_runPending hp h
  | await =>
    obtain rfl := Host.Outcome.next.inj h
    exact .quiet s.readData rest s.draws
  | read j =>
    obtain ⟨data, draws, rfl⟩ := hostRead_eq_next h
    exact .quiet data rest draws
  | reset =>
    obtain rfl := Host.Outcome.next.inj h
    exact .reset rest hi

/-- Every step that completes has one of the effects. -/
theorem stepEffect_of_step (h : step s = .next t) : StepEffect s t := by
  rcases step_cases s with ⟨-, -, hwait⟩ | ⟨hp, -, hrun⟩ | ⟨m, rest, hi, hm, hserve⟩
  · obtain rfl := Host.Outcome.next.inj (hwait.symm.trans h)
    exact .quiet s.readData s.inputs s.draws
  · exact .of_runPending hp (hrun.symm.trans h)
  · exact .of_serve hi hm (hserve.symm.trans h)

end

end Sys2Proof.Machine
end

section
/-! PROOF. The invariant: it holds at reset, every step keeps it, and it gives the result of a clean,
complete dispatch: 20_memory.md rules R25, R31 and R35, 43_gradient_kernel.md rules R80 and R81,
60_exceptions.md rule R86, 70_reset_and_hazards.md rules R99 and R101. -/

namespace Sys2Proof.Machine

/-- The part of the invariant that speaks of no dispatch: legal parameters, and a buffer and a fault
set in canonical form with sound faults. -/
structure WellFormed (p : Params) (buf : Option PixelBuffer) (faults : List FaultRecord) :
    Prop where
  legal : legal p = true
  buf_wf : ∀ b, buf = some b → b.words.wf b.len
  faults_wf : faultsWf faults
  faults_sound : ∀ r ∈ faults, r.Sound p

section
variable {s t : State}

theorem State.Inv.wellFormed (h : s.Inv) : WellFormed s.params s.buf s.faults :=
  ⟨h.legal, h.buf_wf, h.faults_wf, h.faults_sound⟩

/-- With no dispatch, in flight or complete, the invariant asks no more. -/
theorem WellFormed.inv (h : WellFormed s.params s.buf s.faults) (hp : s.pending = [])
    (hl : s.launch = none) : s.Inv :=
  { legal := h.legal
    buf_wf := h.buf_wf
    faults_wf := h.faults_wf
    faults_sound := h.faults_sound
    no_launch := fun _ => hp
    dispatch := fun _ hl' => nomatch hl.symm.trans hl' }

/-- The record of an invocation's fault is sound (R86). -/
theorem Coord.Faults.sound {p : Params} {len : Nat} {x : Coord} {r : FaultRecord}
    (hp : Machine.legal p = true) (h : x.Faults p len r) : r.Sound p := by
  obtain ⟨hin, -, rfl⟩ := h
  exact ⟨hin, toNat_linearIndex hp hin⟩

/-- Every operation keeps what the invariant says of the parameters, the buffer and the faults. -/
theorem exec_keeps_wellFormed {i : Instr} (he : exec i s = .next t)
    (h : WellFormed s.params s.buf s.faults) : WellFormed t.params t.buf t.faults := by
  obtain ⟨hparams, -⟩ := exec_frame he
  obtain ⟨hlegal, hbuf_wf, hfaults_wf, hsound⟩ := h
  cases execEffect_of_exec he with
  | portsOnly hbuf hfaults =>
    exact ⟨hparams ▸ hlegal, hbuf ▸ hbuf_wf, hfaults ▸ hfaults_wf, hparams ▸ hfaults ▸ hsound⟩
  | write b x j hb hadr hbuf hfaults =>
    refine ⟨hparams ▸ hlegal, fun c hc => ?_, hfaults ▸ hfaults_wf, hparams ▸ hfaults ▸ hsound⟩
    obtain rfl := Option.some.inj (hbuf.symm.trans hc)
    exact PixelBuffer.wf_write (hbuf_wf b hb) _ _
  | fault b x r hb hfault hbuf hfaults =>
    refine ⟨hparams ▸ hlegal, hbuf ▸ hbuf_wf, hfaults ▸ pairwise_insertFault r hfaults_wf, ?_⟩
    intro f hf
    rw [hparams]
    rcases mem_insertFault.mp (hfaults ▸ hf) with rfl | hf
    · exact hfault.sound hlegal
    · exact hsound f hf

/-- The invariant does not look at the ports, the host's side or the count of free values. -/
theorem State.Inv.of_same_dispatch (h : s.Inv) (hparams : t.params = s.params) (hbuf : t.buf = s.buf)
    (hpend : t.pending = s.pending) (hfaults : t.faults = s.faults) (hlaunch : t.launch = s.launch) :
    t.Inv := by
  obtain ⟨p, b, ps, fs, l, _, _, _, _⟩ := s
  obtain ⟨p', b', ps', fs', l', _, _, _, _⟩ := t
  obtain rfl : p' = p := hparams
  obtain rfl : b' = b := hbuf
  obtain rfl : ps' = ps := hpend
  obtain rfl : fs' = fs := hfaults
  obtain rfl : l' = l := hlaunch
  exact
    { legal := h.legal
      buf_wf := h.buf_wf
      faults_wf := h.faults_wf
      faults_sound := h.faults_sound
      no_launch := h.no_launch
      dispatch := fun l hl => by
        obtain ⟨b, hb, hd⟩ := h.dispatch l hl
        exact ⟨b, hb, { hd with }⟩ }

/-- An invocation has word `j` of the image as its pixel's exactly when its coordinates are the
remainder and the quotient of `j` by the width (R24, R59). -/
theorem Coord.addresses_iff {p : Params} (hp : Machine.legal p = true) {x : Coord} {j : Nat}
    (hj : j < p.width * p.height) :
    x.Addresses p j ↔ x.x.toNat = j % p.width ∧ x.y.toNat = j / p.width := by
  constructor
  · rintro ⟨hin, rfl⟩
    obtain ⟨hx, hy⟩ := Prod.mk.inj (pixelOf_linearIndex hp hin)
    exact ⟨hx.symm, hy.symm⟩
  · rintro ⟨hx, hy⟩
    have hin : inBounds p x.x x.y = true := inBounds_iff.mpr
      ⟨hx ▸ Nat.mod_lt _ (legal_iff.mp hp).1, hy ▸ Nat.div_lt_of_lt_mul hj⟩
    exact ⟨hin, by rw [toNat_linearIndex hp hin, hx, hy, Nat.div_add_mod']⟩

/-- A word of the image awaits an invocation exactly when a pending one has it as its pixel's. -/
theorem State.awaits_iff (hp : Machine.legal s.params = true) {j : Nat}
    (hj : j < s.params.width * s.params.height) :
    s.Awaits j ↔ SomeAddresses s.params s.pending j := by
  simp only [State.Awaits, SomeAddresses, Coord.addresses_iff hp hj]

/-- A launch gives a dispatch in which every covered word awaits its invocation (R80). -/
theorem launchGrid_gives_inv {gx gy gz : Nat} (hs : launchGrid gx gy gz s = .next t)
    (h : WellFormed s.params s.buf s.faults) : t.Inv := by
  obtain ⟨hp, b, hb, rfl⟩ := launchGrid_eq_next.mp hs
  refine
    { legal := hp
      buf_wf := h.buf_wf
      faults_wf := .nil
      faults_sound := fun r hr => nomatch hr
      no_launch := fun hl => nomatch hl
      dispatch := fun l hl => ⟨b, hb, ?_⟩ }
  obtain rfl := Option.some.inj hl
  refine
    { old_wf := h.buf_wf b hb
      same_len := rfl
      same_id := rfl
      nodup := nodup_gridCoords gx gy gz
      in_grid := fun c hc => mem_gridCoords.mp hc
      fault_past := fun r hr => nomatch hr
      words := fun _ j _ => ?_ }
  by_cases hc : Launch.Covers s.params ⟨gx, gy, gz, b⟩ j
  · refine .inr ⟨hc, (State.awaits_iff ?_ ?_).mpr ?_, rfl⟩
    · exact hp
    · exact hc.1
    · exact (someAddresses_gridCoords_iff hp _ j).mpr hc
  · exact .inl ⟨fun hc' => absurd hc' hc, fun _ => rfl⟩

/-- A pending triple stands in the grid, so a word it has as its pixel's is covered (R81). -/
theorem State.InDispatch.covers {l : Launch} {b : PixelBuffer} (hp : Machine.legal s.params = true)
    (h : s.InDispatch l b) {x : Coord} (hx : x ∈ s.pending) {j : Nat}
    (hadr : x.Addresses s.params j) : l.Covers s.params j :=
  (someAddresses_gridCoords_iff hp l j).mp ⟨x, mem_gridCoords.mpr (h.in_grid x hx), hadr⟩

/-- A word in flight stays as R35 says when the invocation `x` takes its step: `x` makes its own word
final, and another word that awaits an invocation awaits one that is still pending. -/
theorem State.WordInFlight.invocation {l : Launch} {b b' : PixelBuffer} {x : Coord} {j : Nat}
    (hp : Machine.legal s.params = true) (hparams : t.params = s.params)
    (hpend : ∀ y ∈ s.pending, y = x ∨ y ∈ t.pending)
    (hcovers : x.Addresses s.params j → l.Covers s.params j)
    (hthis : x.Addresses s.params j → b'.word j = pixelWordAt s.params j)
    (hother : ¬ x.Addresses s.params j → b'.word j = b.word j) (h : s.WordInFlight l b j) :
    t.WordInFlight l b' j := by
  rw [State.WordInFlight, hparams]
  by_cases hx : x.Addresses s.params j
  · exact .inl ⟨fun _ => hthis hx, fun hnot => absurd (hcovers hx) hnot⟩
  · rw [Launch.HasResult, hother hx]
    rcases h with hfinal | ⟨hc, hawaits, hold⟩
    · exact .inl hfinal
    · obtain ⟨y, hy, hyadr⟩ := (State.awaits_iff hp hc.1).mp hawaits
      have hyt : y ∈ t.pending := (hpend y hy).resolve_left (fun heq => hx (heq ▸ hyadr))
      have hp' : Machine.legal t.params = true := hparams ▸ hp
      have hyadr' : y.Addresses t.params j := hparams ▸ hyadr
      exact .inr ⟨hc, (State.awaits_iff hp' (hyadr'.lt_image hp')).mpr ⟨y, hyt, hyadr'⟩, hold⟩

/-- The dispatch goes on as the invariant says when one of its pending invocations takes its step. -/
theorem State.InDispatch.invocation {l : Launch} {b : PixelBuffer} {k draws : Nat}
    {inputs : List HostMove} (hp : Machine.legal s.params = true) (hb : s.buf = some b)
    (h : s.InDispatch l b) (hk : k < s.pending.length)
    (he : Machine.exec s.pending[k].instr { s with
      pending := s.pending.eraseIdx k, inputs := inputs, draws := draws } = .next t) :
    ∃ b', t.buf = some b' ∧ t.InDispatch l b' := by
  obtain ⟨u, b', hexec, ⟨hparams, hpend, -⟩, hbuf, hlen, hwords, hfaults, -⟩ :=
    exec_instr_effect (s := { s with
      pending := s.pending.eraseIdx k, inputs := inputs, draws := draws }) hp hb s.pending[k]
  obtain rfl := Host.Outcome.next.inj (hexec.symm.trans he)
  obtain ⟨_, hbuf', -, hid⟩ := (execEffect_of_exec he).keeps_len_id hb
  obtain rfl := Option.some.inj (hbuf.symm.trans hbuf')
  have hsub : u.pending.Sublist s.pending := hpend ▸ List.eraseIdx_sublist ..
  have hperm : (s.pending[k] :: u.pending).Perm s.pending := by
    rw [hpend]; exact List.getElem_cons_eraseIdx_perm hk
  refine ⟨b', hbuf,
    { old_wf := h.old_wf
      same_len := hlen.trans h.same_len
      same_id := hid.trans h.same_id
      nodup := h.nodup.sublist hsub
      in_grid := fun c hc => h.in_grid c (hsub.subset hc)
      fault_past := fun r hr => ?_
      words := fun hnone j hj => ?_ }⟩
  · rcases (hfaults r).mp hr with hold | ⟨-, hpast, rfl⟩
    · exact hlen ▸ h.fault_past r hold
    · exact hlen ▸ hpast
  · have hnone' : s.faults = [] := List.eq_nil_iff_forall_not_mem.mpr fun r hr =>
      List.not_mem_nil (hnone ▸ (hfaults r).mpr (.inl hr))
    obtain ⟨hthis, hother⟩ := hwords j (hlen ▸ hj)
    exact (h.words hnone' j (hlen ▸ hj)).invocation hp hparams
      (fun y hy => List.mem_cons.mp (hperm.mem_iff.mpr hy))
      (h.covers hp (List.getElem_mem hk)) hthis hother

end

/-- A reset while a dispatch is in flight leaves the aborted buffer (R101). -/
theorem applyReset_buf_in_flight {s : State} {l : Launch} (hp : s.pending ≠ [])
    (hl : s.launch = some l) :
    (applyReset s).buf = some (abortedBuffer s.params l s.draws) := by
  obtain ⟨c, cs, hc⟩ := List.exists_cons_of_ne_nil hp
  simp only [applyReset, hc, hl]

/-- A reset leaves no dispatch, and a buffer in canonical form: the one bound or, where it ends a
dispatch, one that differs from the buffer at launch by writes (R99, R101). -/
theorem State.Inv.reset {s : State} (h : s.Inv) : (applyReset s).Inv := by
  have hwf : ∀ b, (applyReset s).buf = some b → b.words.wf b.len := by
    intro b hb
    by_cases hp : s.pending = []
    · exact h.buf_wf b ((applyReset_buf_of_complete hp).symm.trans hb)
    · obtain ⟨l, hl⟩ := Option.ne_none_iff_exists'.mp (mt h.no_launch hp)
      obtain rfl := Option.some.inj ((applyReset_buf_in_flight hp hl).symm.trans hb)
      obtain ⟨c, -, hd⟩ := h.dispatch l hl
      obtain ⟨-, -, habort⟩ := abortedBuffer_wf s.params l s.draws
      exact habort hd.old_wf
  have hfaults : (applyReset s).faults = [] := applyReset_faults s
  refine WellFormed.inv ⟨?_, hwf, ?_, ?_⟩ (applyReset_pending s) (applyReset_launch s)
  · exact (applyReset_params s).symm ▸ h.legal
  · exact hfaults.symm ▸ .nil
  · exact hfaults.symm ▸ fun r hr => nomatch hr

/-- Settles O48: an invocation keeps the dispatch's part of the invariant and a launch starts it; after
every other move that changes more than what the host got back, no dispatch is left, and the words and
faults stay well-formed. -/
theorem stepKeepsInvariant : Obligations.StepKeepsInvariant := by
  intro s t h hstep
  cases stepEffect_of_step hstep with
  | quiet data inputs draws => exact h.of_same_dispatch rfl rfl rfl rfl rfl
  | invocation k hk inputs draws he =>
    obtain ⟨-, -, hlaunch, -⟩ := exec_frame he
    have hwf := exec_keeps_wellFormed he h.wellFormed
    refine
      { legal := hwf.legal
        buf_wf := hwf.buf_wf
        faults_wf := hwf.faults_wf
        faults_sound := hwf.faults_sound
        no_launch := fun hnone => ?_
        dispatch := fun l hl => ?_ }
    · rw [h.no_launch (hlaunch.symm.trans hnone)] at hk
      exact absurd hk (Nat.not_lt_zero k)
    · obtain ⟨b, hb, hd⟩ := h.dispatch l (hlaunch.symm.trans hl)
      exact hd.invocation h.legal hb hk he
  | request hp i inputs he =>
    obtain ⟨-, hpend, hlaunch, -⟩ := exec_frame he
    exact (exec_keeps_wellFormed he h.wellFormed).inv (hpend.trans hp) hlaunch
  | bind hp len init inputs =>
    refine WellFormed.inv ⟨h.legal, fun b hb => ?_, h.faults_wf, h.faults_sound⟩ hp rfl
    obtain rfl := Option.some.inj hb
    exact bindBuffer_wf init (Memory.wf_nil len)
  | release hp inputs =>
    exact WellFormed.inv ⟨h.legal, fun _ hb => (nomatch hb), h.faults_wf, h.faults_sound⟩ hp rfl
  | launch hp gx gy gz inputs he => exact launchGrid_gives_inv he h.wellFormed
  | reset inputs hi =>
    exact (h.of_same_dispatch (t := { s with inputs := inputs }) rfl rfl rfl rfl rfl).reset

/-- Settles O49: a complete dispatch has no word that awaits an invocation, so each has its result. -/
theorem invariantGivesDispatchResult : Obligations.InvariantGivesDispatchResult := by
  intro s l b h hl hb ⟨hdone, hclean⟩ j hj
  obtain ⟨c, hc, hd⟩ := h.dispatch l hl
  obtain rfl := Option.some.inj (hb.symm.trans hc)
  obtain ⟨hcovered, hother⟩ : l.HasResult s.params b j :=
    (hd.words hclean j hj).resolve_right fun ⟨_, ⟨x, hx, _⟩, _⟩ =>
      List.not_mem_nil ((show s.pending = [] from hdone) ▸ hx)
  split
  case isTrue hcov => exact hcovered hcov
  case isFalse hcov => exact hother hcov

/-- Settles O47: at reset nothing is pending, launched or recorded, and the buffer has no word with a
known value. -/
theorem resetHasInvariant : Obligations.ResetHasInvariant := by
  refine WellFormed.inv ⟨by decide, fun b hb => ?_, .nil, nofun⟩ rfl rfl
  obtain rfl := Option.some.inj hb
  exact Memory.wf_nil _

/-- Settles O50: the fields of the reset state. -/
theorem resetState : Obligations.ResetState := ⟨rfl, rfl, rfl⟩

end Sys2Proof.Machine
end

section
/-! PROOF. What an operation leaves unchanged, and what its answer depends on: 10_state.md rule R12,
20_memory.md rules R25, R28, R29, R32, 43_gradient_kernel.md rules R71 to R74, R36. -/

namespace Sys2Proof.Machine

section
variable {s t : State}

/-- MAP_INDEX, SCALE and PACK drive the ports and do nothing else (R23). -/
theorem eq_answer_of_exec_subunit {i : Instr} (hi : ∀ x y z d, i ≠ .invoke x y z d)
    (h : exec i s = .next t) : t = s.answer t.out := by
  cases i with
  | invoke x y z d => exact absurd rfl (hi x y z d)
  | mapIndex x y c d =>
    obtain ⟨-, ⟨-, rfl⟩ | ⟨-, rfl⟩⟩ := execMapIndex_eq_next.mp h <;> rfl
  | scale c d e f => obtain ⟨-, -, rfl⟩ := execScale_eq_next.mp h; rfl
  | pack r g b a => obtain ⟨-, -, rfl⟩ := execPack_eq_next.mp h; rfl

/-- Settles O23: each of the three answers the state with the ports driven, whose other fields are the
old ones. -/
theorem subunitFrame : Obligations.SubunitFrame := by
  intro s t a b c d
  have frame {i : Instr} (hi : ∀ x y z d, i ≠ .invoke x y z d) (h : exec i s = .next t) :
      { t with out := s.out } = s := by
    rw [eq_answer_of_exec_subunit hi h]; rfl
  exact ⟨frame fun _ _ _ _ => Instr.noConfusion, frame fun _ _ _ _ => Instr.noConfusion,
    frame fun _ _ _ _ => Instr.noConfusion⟩

/-- A fault that was recorded before leaves only the ports changed (R21, R87). -/
theorem raiseFault_eq_answer {reason : Fault} {x : Coord} {info : Word}
    (h : (s.raiseFault reason x info).faults = s.faults) :
    s.raiseFault reason x info = s.answer Outputs.idle := by
  rw [State.raiseFault_faults] at h
  rw [State.raiseFault, h, State.answer]

/-- An INVOKE that adds no fault answers the same whatever its `z` (R47, R86). -/
theorem exec_invoke_congr_of_same_faults {x y z d z' d' : Word} {t' : State}
    (h : exec (.invoke x y z d) s = .next t) (h' : exec (.invoke x y z' d') s = .next t')
    (hf : t.faults = s.faults) (hf' : t'.faults = s.faults) : t = t' := by
  obtain ⟨hp, ⟨hin, rfl⟩ | ⟨hin, b, hb, ⟨hlt, rfl⟩ | ⟨hle, rfl⟩⟩⟩ := execInvoke_eq_next.mp h
  · exact Host.Outcome.next.inj ((exec_invoke_of_not_inBounds hp hin z' d').symm.trans h')
  · exact Host.Outcome.next.inj ((exec_invoke_of_index_lt hp hin hb hlt z' d').symm.trans h')
  · obtain rfl := Host.Outcome.next.inj ((exec_invoke_of_len_le hp hin hb hle z' d').symm.trans h')
    rw [raiseFault_eq_answer hf, raiseFault_eq_answer hf']

/-- Settles O24: no meaning takes these fields, but for `z` in the record of a fault. -/
theorem ignoredFieldsAreNotRead : Obligations.IgnoredFieldsAreNotRead :=
  fun _ _ _ _ _ _ _ => ⟨rfl, rfl, rfl, fun _ _ => exec_invoke_congr_of_same_faults⟩

/-- Settles O26: INVOKE's three outcomes; only the write changes the buffer, at its one index. -/
theorem invokeFrame : Obligations.InvokeFrame := by
  intro s t x y z d h
  obtain ⟨hparams, hpend, hlaunch, hread, hinputs, hdraws⟩ := exec_frame h
  refine ⟨hparams, hpend, hlaunch, hread, hinputs, hdraws, ?_⟩
  obtain ⟨-, ⟨hout, rfl⟩ | ⟨hin, b, hb, ⟨hlt, rfl⟩ | ⟨hle, rfl⟩⟩⟩ := execInvoke_eq_next.mp h
  case inl =>
    exact ⟨id, fun _ => rfl, fun b hb => ⟨b, hb, rfl, fun _ _ => rfl, fun _ => rfl, fun _ => rfl,
      fun _ => rfl, fun hin => absurd hin (Bool.eq_false_iff.mp hout)⟩⟩
  case inr.inl =>
    refine ⟨fun hnone => (nomatch hnone.symm.trans hb), fun _ => rfl, fun c hc => ?_⟩
    obtain rfl := Option.some.inj (hb.symm.trans hc)
    exact ⟨_, rfl, PixelBuffer.write_len .., fun j hj => PixelBuffer.word_write_of_ne hj _,
      fun hout => absurd hin (Bool.eq_false_iff.mp hout), fun hle => absurd hlt (Nat.not_lt.mpr hle),
      fun _ => rfl, fun _ _ => PixelBuffer.word_write_same hlt _⟩
  case inr.inr =>
    refine ⟨fun hnone => (nomatch hnone.symm.trans hb),
      fun hout => absurd hin (Bool.eq_false_iff.mp hout), fun c hc => ?_⟩
    obtain rfl := Option.some.inj (hb.symm.trans hc)
    exact ⟨b, hb, rfl, fun _ _ => rfl, fun _ => rfl, fun _ => rfl,
      fun hlt => absurd hlt (Nat.not_lt.mpr hle), fun _ hlt => absurd hlt (Nat.not_lt.mpr hle)⟩

/-- A buffer of the same length as `b` is bound wherever the lengths of the bound buffers agree. -/
theorem exists_buf_of_same_len {s' : State} {b : PixelBuffer}
    (h : s.buf.map PixelBuffer.len = s'.buf.map PixelBuffer.len) (hb : s.buf = some b) :
    ∃ b', s'.buf = some b' ∧ b'.len = b.len :=
  Option.map_eq_some_iff.mp (h.symm.trans (congrArg (Option.map PixelBuffer.len) hb))

/-- Settles O29: what an operation asks before it answers, and the ports it drives, are of the
operands, the parameters and the length of the bound buffer. -/
theorem answersDependOnNoState : Obligations.AnswersDependOnNoState := by
  intro i s s' t hparams hlen h
  cases i with
  | invoke x y z d =>
    obtain ⟨hp, hcase⟩ := execInvoke_eq_next.mp h
    rw [hparams] at hp hcase
    obtain ⟨hout, rfl⟩ | ⟨hin, b, hb, hcase⟩ := hcase
    · exact ⟨_, exec_invoke_of_not_inBounds hp hout z d, rfl⟩
    · obtain ⟨b', hb', hsame⟩ := exists_buf_of_same_len hlen hb
      obtain ⟨hlt, rfl⟩ | ⟨hle, rfl⟩ := hcase
      · exact ⟨_, exec_invoke_of_index_lt hp hin hb' (hsame ▸ hlt) z d, rfl⟩
      · exact ⟨_, exec_invoke_of_len_le hp hin hb' (hsame ▸ hle) z d, rfl⟩
  | mapIndex x y c d =>
    obtain ⟨hp, hcase⟩ := execMapIndex_eq_next.mp h
    rw [hparams] at hp hcase
    obtain ⟨hin, rfl⟩ | ⟨hout, rfl⟩ := hcase
    · exact ⟨_, exec_mapIndex_of_inBounds hp hin c d, rfl⟩
    · exact ⟨_, exec_mapIndex_of_not_inBounds hp hout c d, rfl⟩
  | scale c d e f =>
    obtain ⟨hp, hlt, rfl⟩ := execScale_eq_next.mp h
    exact ⟨_, exec_scale_of_lt (hparams ▸ hp) hlt e f, rfl⟩
  | pack r g b a =>
    obtain ⟨hp, hch, rfl⟩ := execPack_eq_next.mp h
    exact ⟨_, exec_pack_of_channels (hparams ▸ hp) hch, rfl⟩

/-- A constant of at most 255 as PACK's operand is its channel, zero-extended (R6, R47). -/
theorem ofNat_eq_setWidth_channel {v : Nat} (h : v ≤ 255) :
    BitVec.ofNat 32 v = (BitVec.ofNat 8 v).setWidth 32 := by
  apply BitVec.eq_of_toNat_eq
  simp only [BitVec.toNat_setWidth, BitVec.toNat_ofNat]
  omega

/-- PACK of a pixel's channels answers its pixel word (R73, R79). -/
theorem exec_pack_pixelWord (hp : legal s.params = true) (x y : Nat) :
    exec (.pack ((scaleValue x s.params.width).setWidth 32)
        ((scaleValue y s.params.height).setWidth 32) (BitVec.ofNat 32 s.params.bValue)
        (BitVec.ofNat 32 s.params.aValue)) s =
      .next (s.answer { Outputs.idle with resWord := some (pixelWord s.params x y) }) := by
  obtain ⟨-, -, -, -, -, hB, hA⟩ := legal_iff.mp hp
  rw [ofNat_eq_setWidth_channel hB, ofNat_eq_setWidth_channel hA, exec_pack_setWidth hp]
  rfl

/-- Settles O30: the four operations run one after the other, since each changes the ports alone, and
what they answer is the index and the word of R73 that INVOKE writes. -/
theorem invokeIsComposition : Obligations.InvokeIsComposition := by
  intro s b x y z d hp hb hw hh hlen hx hy
  have hin := inBounds_iff.mpr ⟨hx, hy⟩
  have hW : (BitVec.ofNat 32 s.params.width).toNat = s.params.width := Nat.mod_eq_of_lt hw
  have hH : (BitVec.ofNat 32 s.params.height).toNat = s.params.height := Nat.mod_eq_of_lt hh
  obtain ⟨hinvoke, hword⟩ := exec_invoke_of_image_le hp hin hb hlen z d
  exact ⟨_, _, _, _, _, linearIndex s.params x y, pixelWord s.params x.toNat y.toNat,
    scaleValue x.toNat s.params.width, scaleValue y.toNat s.params.height, _,
    exec_mapIndex_of_inBounds hp hin 0 0, rfl,
    exec_scale_of_lt hp (hW.symm ▸ hx) 0 0, congrArg (fun w => some (scaleValue x.toNat w)) hW,
    exec_scale_of_lt hp (hH.symm ▸ hy) 0 0, congrArg (fun h => some (scaleValue y.toNat h)) hH,
    exec_pack_pixelWord hp x.toNat y.toNat, rfl, hinvoke, rfl, rfl, rfl,
    (toNat_linearIndex hp hin).symm ▸ hword⟩

/-- Settles O31: the one word that an operation may write is some pixel's, so it is inside the
image. -/
theorem wordsPastTheImageAreKept : Obligations.WordsPastTheImageAreKept := by
  intro i s t b h hb
  have hp := legal_of_exec h
  cases execEffect_of_exec h with
  | portsOnly hbuf _ => exact ⟨b, hbuf.trans hb, rfl, fun _ _ => rfl⟩
  | write c x k hc hadr hbuf _ =>
    obtain rfl := Option.some.inj (hb.symm.trans hc)
    refine ⟨_, hbuf, PixelBuffer.write_len .., fun j hj => PixelBuffer.word_write_of_ne ?_ _⟩
    have hk := hadr.lt_image hp
    omega
  | fault _ _ _ _ _ hbuf _ => exact ⟨b, hbuf.trans hb, rfl, fun _ _ => rfl⟩

/-- Settles O32: the repeated write finds the word holding its value already. -/
theorem writesAreIdempotent : Obligations.WritesAreIdempotent := by
  intro s t x y z d z' d' h hwe
  obtain ⟨hp, ⟨-, rfl⟩ | ⟨hin, b, hb, ⟨hlt, rfl⟩ | ⟨-, rfl⟩⟩⟩ := execInvoke_eq_next.mp h
  · exact absurd hwe Bool.false_ne_true
  · have hlt' : (linearIndex s.params x y).toNat < (b.write (linearIndex s.params x y).toNat
        (pixelWord s.params x.toNat y.toNat)).len := (PixelBuffer.write_len ..).symm ▸ hlt
    refine (exec_invoke_of_index_lt (s := s.memWrite b _ _) hp hin rfl hlt' z' d').trans ?_
    rw [State.memWrite_params, State.memWrite, PixelBuffer.write_write]
    rfl
  · exact absurd hwe Bool.false_ne_true

/-- From `b` to `c` the words in `A` become their pixel words, and no other word changes (R32, R79). -/
def PixelsWritten (p : Params) (A : Nat → Prop) (b c : PixelBuffer) : Prop :=
  ∀ j, (A j → c.word j = pixelWordAt p j) ∧ (¬ A j → c.word j = b.word j)

theorem PixelsWritten.trans {p : Params} {A A' : Nat → Prop} {b c d : PixelBuffer}
    (h : PixelsWritten p A b c) (h' : PixelsWritten p A' c d) :
    PixelsWritten p (fun j => A j ∨ A' j) b d := by
  intro j
  by_cases hA' : A' j
  · exact ⟨fun _ => (h' j).1 hA', fun hnot => absurd (.inr hA') hnot⟩
  · rw [(h' j).2 hA']
    exact ⟨fun hor => (h j).1 (hor.resolve_right hA'), fun hnot => (h j).2 (mt .inl hnot)⟩

theorem PixelsWritten.word_eq {p : Params} {A A' : Nat → Prop} {b c c' : PixelBuffer}
    (h : PixelsWritten p A b c) (h' : PixelsWritten p A' b c') {j : Nat} (hsame : A j ↔ A' j) :
    c.word j = c'.word j := by
  by_cases hA : A j
  · exact ((h j).1 hA).trans ((h' j).1 (hsame.mp hA)).symm
  · exact ((h j).2 hA).trans ((h' j).2 (mt hsame.mpr hA)).symm

/-- INVOKE writes its pixel's word if that word is in the buffer, and records its fault (R71). -/
theorem exec_invoke_pixelsWritten {b : PixelBuffer} (hp : legal s.params = true)
    (hb : s.buf = some b) (x : Coord) (d : Word) :
    ∃ t c, exec (.invoke x.x x.y x.z d) s = .next t ∧ t.params = s.params ∧ t.buf = some c ∧
      c.len = b.len ∧ PixelsWritten s.params (fun j => j < b.len ∧ x.Addresses s.params j) b c ∧
      ∀ r, r ∈ t.faults ↔ r ∈ s.faults ∨ x.Faults s.params b.len r := by
  obtain ⟨t, c, hexec, hbuf, hlen, -, -, -, hword, hfault⟩ := exec_invoke_effect hp hb x.x x.y x.z d
  obtain ⟨hparams, -⟩ := exec_frame hexec
  refine ⟨t, c, hexec, hparams, hbuf, hlen, fun j => ⟨?_, fun hnot => ?_⟩, hfault⟩
  · rintro ⟨hj, hin, hidx⟩
    rw [hword j, if_pos ⟨hin, hidx ▸ hj, hidx.symm⟩, Coord.Addresses.pixelWord_eq hp ⟨hin, hidx⟩]
  · rw [hword j, if_neg fun ⟨hin, hlt, hidx⟩ => hnot ⟨hidx ▸ hlt, hin, hidx.symm⟩]

/-- Settles O33: in either order the words of both pixels are their pixel words then, no other word
has changed, and the faults are those of both. -/
theorem invocationsCommute : Obligations.InvocationsCommute := by
  intro s b x y z d x' y' z' d' hp hb
  obtain ⟨t, c₁, ht, hparams, hc₁, hlen₁, hword₁, hfault₁⟩ :=
    exec_invoke_pixelsWritten hp hb ⟨x, y, z⟩ d
  obtain ⟨u, c, hu, -, hc, hlen, hword, hfault⟩ :=
    exec_invoke_pixelsWritten (hparams ▸ hp) hc₁ ⟨x', y', z'⟩ d'
  obtain ⟨t', c₁', ht', hparams', hc₁', hlen₁', hword₁', hfault₁'⟩ :=
    exec_invoke_pixelsWritten hp hb ⟨x', y', z'⟩ d'
  obtain ⟨u', c', hu', -, hc', hlen', hword', hfault'⟩ :=
    exec_invoke_pixelsWritten (hparams' ▸ hp) hc₁' ⟨x, y, z⟩ d
  rw [hparams, hlen₁] at hword hfault
  rw [hparams', hlen₁'] at hword' hfault'
  refine ⟨t, u, t', u', c, c', ht, hu, ht', hu', hc, hc', by omega, fun j => ?_, fun r => ?_⟩
  · exact (hword₁.trans hword).word_eq (hword₁'.trans hword') or_comm
  · rw [hfault, hfault', hfault₁, hfault₁', or_right_comm]

end

/-- Settles O60: the index is below `BUF_LEN`, so the write shows at its four bytes; every other address
in the view belongs to another word. -/
theorem byteViewIsAligned : Obligations.ByteViewIsAligned := by
  refine ⟨fun s b x y z d order base hp hb hbase hx hy hlt => ?aligned,
    fun b order base addr hbase => ?unaligned⟩
  case unaligned =>
    have hview : ¬ legalBase base = true := by simpa [legalBase] using hbase
    exact if_neg fun h => hview h.1
  case aligned =>
    have hin := inBounds_iff.mpr ⟨hx, hy⟩
    have hidx := toNat_linearIndex hp hin
    rw [← hidx] at hlt ⊢
    refine ⟨_, _, _, exec_invoke_of_index_lt hp hin hb hlt z d, rfl, rfl,
      wordAddress_mod_four (decide_eq_true hbase) _, fun k hk => ?written, fun a' ha' => ?other⟩
    case written =>
      refine (PixelBuffer.byteAt_wordAddress_add order hbase ?_ hk).trans ?_
      · rwa [PixelBuffer.write_len]
      · rw [PixelBuffer.word_write_same hlt]
    case other =>
      by_cases hbelow : a' < base
      · have hnone (c : PixelBuffer) : c.byteAt order base a' = none :=
          if_neg fun ⟨_, hle, _⟩ => Nat.not_lt.mpr hle hbelow
        rw [hnone, hnone]
      · refine PixelBuffer.byteAt_congr order (PixelBuffer.write_len ..)
          (PixelBuffer.word_write_of_ne ?_ _)
        omega

end Sys2Proof.Machine
end

section
/-! PROOF. Refusals, and the steps that no rule lets end otherwise: 00_scope.md rule R6,
60_exceptions.md rules R87 to R89, 20_memory.md rule R38. -/

namespace Sys2Proof.Machine

section
variable {s t : State}

theorem whenLegal_of_not_legal (h : legal s.params = false) (k : Answer) :
    whenLegal s k = .refused .parameterIllegal := if_neg (Bool.eq_false_iff.mp h)

/-- Under illegal parameters every operation is refused, before any refusal of its own (log 9). -/
theorem exec_of_not_legal (h : legal s.params = false) (i : Instr) :
    exec i s = .refused .parameterIllegal := by
  cases i with
  | invoke x y z d => exact whenLegal_of_not_legal h _
  | mapIndex x y c d => exact whenLegal_of_not_legal h _
  | scale c d e f => exact whenLegal_of_not_legal h _
  | pack r g b a => exact whenLegal_of_not_legal h _

/-- Settles O36: `whenLegal` stands first in every operation and in a launch. -/
theorem illegalParametersAreRefused : Obligations.IllegalParametersAreRefused := by
  refine ⟨fun p => legal_iff, by decide, fun s h => ⟨exec_of_not_legal h, ?launch⟩⟩
  case launch =>
    intro gx gy gz rest hp hi
    exact (step_of_inputs_cons hi (.inl hp)).trans (whenLegal_of_not_legal h _)

/-- With no buffer, an in-bounds INVOKE is refused (log 8). -/
theorem exec_invoke_of_no_buffer {x y : Word} (hp : legal s.params = true) (hb : s.buf = none)
    (hin : inBounds s.params x y = true) (z d : Word) :
    exec (.invoke x y z d) s = .refused .noBufferBound := by
  rw [exec, execInvoke, whenLegal_of_legal hp, if_pos hin, hb]

/-- With no buffer, a launch is refused (R80, R88). -/
theorem launchGrid_of_no_buffer (hp : legal s.params = true) (hb : s.buf = none) (gx gy gz : Nat) :
    launchGrid gx gy gz s = .refused .noBufferBound := by
  rw [launchGrid, whenLegal_of_legal hp, hb]

/-- Settles O37: a launch and an in-bounds INVOKE look for the buffer; out of bounds INVOKE ends at the
guard, before it. -/
theorem noBufferIsRefused : Obligations.NoBufferIsRefused := by
  intro s hp hb
  refine ⟨fun gx gy gz rest hpend hi => ?launch, fun x y z d hx hy => ?inBounds,
    fun x y z d hout => ?outOfBounds⟩
  case launch =>
    exact (step_of_inputs_cons hi (.inl hpend)).trans
      (launchGrid_of_no_buffer (s := { s with inputs := rest }) hp hb gx gy gz)
  case inBounds => exact exec_invoke_of_no_buffer hp hb (inBounds_iff.mpr ⟨hx, hy⟩) z d
  case outOfBounds =>
    exact ⟨_, exec_invoke_of_not_inBounds hp (not_inBounds_iff.mpr hout) z d, rfl⟩

/-- Under legal parameters INVOKE is refused for want of a buffer alone (R89, log 8). -/
theorem no_buffer_of_exec_invoke_refused {x y z d : Word} {r : Refusal}
    (hp : legal s.params = true) (h : exec (.invoke x y z d) s = .refused r) :
    r = .noBufferBound ∧ s.buf = none := by
  cases hb : s.buf with
  | none =>
    cases hin : inBounds s.params x y
    case false => exact nomatch (exec_invoke_of_not_inBounds hp hin z d).symm.trans h
    case true =>
      have hrefused := exec_invoke_of_no_buffer hp hb hin z d
      exact ⟨(Host.Outcome.refused.inj (hrefused.symm.trans h)).symm, rfl⟩
  | some b =>
    obtain ⟨t, -, hexec, -⟩ := exec_invoke_effect hp hb x y z d
    exact nomatch hexec.symm.trans h

/-- Settles O38: under legal parameters each operation has one refusal, and meets it on one
condition. -/
theorem refusalReasons : Obligations.RefusalReasons := by
  intro i s r h
  cases hp : legal s.params
  case false =>
    obtain rfl := Host.Outcome.refused.inj ((exec_of_not_legal hp i).symm.trans h)
    exact .inl ⟨rfl, rfl⟩
  case true =>
    refine .inr ?_
    cases i with
    | invoke x y z d =>
      obtain ⟨hr, hb⟩ := no_buffer_of_exec_invoke_refused hp h
      exact .inl ⟨hr, hb, x, y, z, d, rfl⟩
    | mapIndex x y c d =>
      cases hin : inBounds s.params x y
      case false => exact nomatch (exec_mapIndex_of_not_inBounds hp hin c d).symm.trans h
      case true => exact nomatch (exec_mapIndex_of_inBounds hp hin c d).symm.trans h
    | scale c d e f =>
      by_cases hlt : c.toNat < d.toNat
      · exact nomatch (exec_scale_of_lt hp hlt e f).symm.trans h
      · obtain rfl := Host.Outcome.refused.inj ((exec_scale_of_not_lt hp hlt e f).symm.trans h)
        exact .inr (.inl ⟨rfl, c, d, e, f, rfl, Nat.not_lt.mp hlt⟩)
    | pack r g b a =>
      by_cases hch : (isChannel r && isChannel g && isChannel b && isChannel a) = true
      · exact nomatch (exec_pack_of_channels hp hch).symm.trans h
      · obtain rfl := Host.Outcome.refused.inj ((exec_pack_of_wide hp hch).symm.trans h)
        exact .inr (.inr ⟨rfl, Bool.eq_false_iff.mpr (mt wellFormed_pack_iff.mp hch)⟩)

theorem serveRequest_ne_fault (q : Req) (s : State) (f : Fault) : serveRequest q s ≠ .fault f := by
  unfold serveRequest
  split
  · exact exec_ne_fault _ _ f
  · exact nofun

theorem launchGrid_ne_fault (gx gy gz : Nat) (s : State) (f : Fault) :
    launchGrid gx gy gz s ≠ .fault f := by
  refine whenLegal_ne_fault ?_
  split <;> exact nofun

theorem runPending_ne_fault (k : Nat) (s : State) (f : Fault) : runPending k s ≠ .fault f := by
  unfold runPending
  split
  · exact nofun
  · exact exec_ne_fault _ _ f

theorem hostRead_ne_fault (j : Nat) (s : State) (f : Fault) : hostRead j s ≠ .fault f := by
  unfold hostRead
  repeat' split
  all_goals exact nofun

theorem serve_ne_fault (m : HostMove) (s : State) (f : Fault) : serve m s ≠ .fault f := by
  cases m with
  | request q => exact serveRequest_ne_fault q s f
  | bind len init => exact nofun
  | release => exact nofun
  | dispatch gx gy gz => exact launchGrid_ne_fault gx gy gz s f
  | dispatchTiles tx ty => exact launchGrid_ne_fault _ _ 1 s f
  | pick k => exact runPending_ne_fault k s f
  | await => exact nofun
  | read j => exact hostRead_ne_fault j s f
  | reset => exact nofun

/-- Settles O12: a step waits, runs a pending invocation or serves a host move, and each of them
records its faults. -/
theorem stepNeverEndsInFault : Obligations.StepNeverEndsInFault := by
  intro s f
  rcases step_cases s with ⟨-, -, hwait⟩ | ⟨-, -, hrun⟩ | ⟨m, rest, -, -, hserve⟩
  · rw [hwait]; exact nofun
  · rw [hrun]; exact runPending_ne_fault _ _ f
  · rw [hserve]; exact serve_ne_fault m _ f

/-- Settles O11: no effect of a step has other parameters. -/
theorem stepKeepsParameters : Obligations.StepKeepsParameters := by
  intro s t h
  cases stepEffect_of_step h with
  | quiet data inputs draws => rfl
  | invocation k hk inputs draws he => exact (exec_frame he).1
  | request hp i inputs he => exact (exec_frame he).1
  | bind hp len init inputs => rfl
  | release hp inputs => rfl
  | launch hp gx gy gz inputs he =>
    obtain ⟨-, b, -, rfl⟩ := launchGrid_eq_next.mp he
    rfl
  | reset inputs hi => exact applyReset_params _

/-- Settles O35: with an invocation pending and no reset to come, a step is a host read or an
invocation's, and an operation only adds faults. -/
theorem faultsAreNeverCleared : Obligations.FaultsAreNeverCleared := by
  intro s t hpend hreset h r hr
  cases stepEffect_of_step h with
  | quiet data inputs draws => exact hr
  | invocation k hk inputs draws he => exact (execEffect_of_exec he).keeps_faults hr
  | request hp => exact absurd hp hpend
  | bind hp => exact absurd hp hpend
  | release hp => exact absurd hp hpend
  | launch hp => exact absurd hp hpend
  | reset inputs hi => exact absurd (congrArg List.head? hi) hreset

end

end Sys2Proof.Machine
end

section
/-! PROOF. The launch and the fault set of a complete dispatch: 43_gradient_kernel.md rule R80,
60_exceptions.md rules R86 and R89. -/

namespace Sys2Proof.Machine

/-- Settles O39: with nothing pending the launch takes place at once, and the grid's triples are those
below the extents, each once. -/
theorem launchMakesGridPending : Obligations.LaunchMakesGridPending := by
  intro s b gx gy gz rest hp hb hpend hi
  have hstep : step s = launchGrid gx gy gz { s with inputs := rest } :=
    step_of_inputs_cons hi (.inl hpend)
  exact ⟨_, hstep.trans (launchGrid_eq_next.mpr ⟨hp, b, hb, rfl⟩), rfl, rfl, rfl,
    nodup_gridCoords gx gy gz, fun _ => mem_gridCoords, rfl⟩

/-- The fault an invocation records, in the words of R86. -/
theorem Coord.faults_iff {p : Params} (hp : legal p = true) {len : Nat} {x : Coord}
    {r : FaultRecord} :
    x.Faults p len r ↔ r.reason = .bufferTooSmall ∧ x.x.toNat < p.width ∧ x.y.toNat < p.height ∧
      len ≤ r.info.toNat ∧ r.info.toNat = x.y.toNat * p.width + x.x.toNat ∧ r.coord = x := by
  constructor
  · intro h
    obtain ⟨hx, hy, hle, hreason, hcoord, hinfo⟩ := h.condition_and_record hp
    exact ⟨hreason, hx, hy, hinfo ▸ hle, hinfo, hcoord⟩
  · obtain ⟨reason, coord, info⟩ := r
    rintro ⟨rfl, hx, hy, hle, hinfo, rfl⟩
    have hin := inBounds_iff.mpr ⟨hx, hy⟩
    obtain rfl : info = linearIndex p coord.x coord.y :=
      BitVec.eq_of_toNat_eq (hinfo.trans (toNat_linearIndex hp hin).symm)
    exact ⟨hin, hle, rfl⟩

/-- Settles O44: the whole grid is done, the faults are those of its triples, and the canonical form
holds none twice. -/
theorem faultsOfCompleteDispatch : Obligations.FaultsOfCompleteDispatch := by
  intro s b gx gy gz ks hp hb hpend hgx hgy hgz hi
  obtain ⟨t, c, hrun, -, h⟩ := run_dispatch_complete hp hb hpend hgx hgy hgz hi
  refine ⟨t, hrun, h.faults_wf.imp fun hlt heq => ?nodup, fun r => ?members⟩
  case nodup => exact Nat.lt_irrefl _ (heq ▸ hlt)
  case members =>
    simp only [h.faults r, Coord.faults_iff hp, mem_gridCoords]
    constructor
    · rintro ⟨x, ⟨hx, hy, hz⟩, hreason, hxw, hyh, hle, hinfo, rfl⟩
      exact ⟨hreason, hx, hy, hz, hxw, hyh, hle, hinfo⟩
    · rintro ⟨hreason, hx, hy, hz, hxw, hyh, hle, hinfo⟩
      exact ⟨r.coord, ⟨hx, hy, hz⟩, hreason, hxw, hyh, hle, hinfo, rfl⟩

end Sys2Proof.Machine
end

section
/-! PROOF. The host's moves: a reset or a read in flight, binding and release: 20_memory.md rule R38,
70_reset_and_hazards.md rules R101 to R103. -/

namespace Sys2Proof.Machine

/-- A write changes no word but the one it names, and none past the length (R32). -/
theorem PixelBuffer.word_write_of_ne_or_len_le {b : PixelBuffer} {j k : Nat}
    (h : j ≠ k ∨ b.len ≤ j) (v : Word) : (b.write k v).word j = b.word j := by
  by_cases hne : j = k
  · subst hne
    rw [PixelBuffer.write, if_neg (Nat.not_lt.mpr (h.resolve_left (not_not_intro rfl)))]
  · exact PixelBuffer.word_write_of_ne hne v

/-- After writes of pixel words, each at its pixel's word or left out, a word is the old one or, if
some triple has it as its pixel's, its pixel word. -/
theorem word_foldl_pixel_writes {p : Params} (hp : legal p = true)
    {f : PixelBuffer → Coord → PixelBuffer}
    (hf : ∀ b x, f b x = b ∨ ∃ j, x.Addresses p j ∧
      f b x = b.write j (pixelWord p x.x.toNat x.y.toNat))
    (xs : List Coord) (b : PixelBuffer) (j : Nat) :
    (xs.foldl f b).word j = b.word j ∨
      SomeAddresses p xs j ∧ (xs.foldl f b).word j = pixelWordAt p j := by
  induction xs generalizing b with
  | nil => exact .inl rfl
  | cons x xs ih =>
    rw [someAddresses_cons]
    rcases ih (f b x) with hkept | ⟨hadr, hpixel⟩
    · rw [List.foldl_cons, hkept]
      rcases hf b x with heq | ⟨k, hadr, hwrite⟩
      · exact .inl (congrArg (PixelBuffer.word · j) heq)
      · rw [hwrite]
        by_cases hj : j ≠ k ∨ b.len ≤ j
        · exact .inl (PixelBuffer.word_write_of_ne_or_len_le hj _)
        · obtain ⟨rfl, hlt⟩ : j = k ∧ j < b.len := by omega
          exact .inr ⟨.inl hadr, (PixelBuffer.word_write_same hlt _).trans (hadr.pixelWord_eq hp)⟩
    · exact .inr ⟨.inr hadr, hpixel⟩

/-- Each word after a reset in flight is the old one or, where the grid covers it, its pixel word. -/
theorem word_abortedBuffer {p : Params} (hp : legal p = true) (l : Launch) (draw j : Nat) :
    (abortedBuffer p l draw).word j = l.buf0.word j ∨
      l.Covers p j ∧ (abortedBuffer p l draw).word j = pixelWordAt p j := by
  rw [← someAddresses_gridCoords_iff hp]
  refine word_foldl_pixel_writes hp (fun b x => ?_) _ _ j
  dsimp only
  split
  case isTrue h => exact .inr ⟨_, ⟨(Bool.and_eq_true_iff.mp h).1, rfl⟩, rfl⟩
  case isFalse => exact .inl rfl

/-- Settles O52: a reset does not wait, and the buffer it leaves differs from the one at launch by
writes of covered pixels. -/
theorem resetDuringDispatch : Obligations.ResetDuringDispatch := by
  intro s l rest hp hpend hl hi
  have hstep : step s = .next (applyReset { s with inputs := rest }) :=
    step_of_inputs_cons hi (.inr rfl)
  obtain ⟨hlen, -⟩ := abortedBuffer_wf s.params l s.draws
  refine ⟨_, _, hstep, applyReset_pending _, applyReset_faults _, applyReset_params _,
    applyReset_inputs _, applyReset_buf_in_flight hpend hl, hlen, fun j _ => ?_⟩
  rcases word_abortedBuffer hp l s.draws j with hold | ⟨hc, hpixel⟩
  · exact ⟨fun _ => .inl hold, fun _ => hold⟩
  · exact ⟨fun _ => .inr hpixel, fun hnot => absurd hc hnot⟩

/-- A read in flight takes the word now or the word at launch, by a free choice (R38, log 13). -/
theorem hostRead_in_flight {s : State} {l : Launch} {b : PixelBuffer} {j : Nat}
    (hp : s.pending ≠ []) (hl : s.launch = some l) (hb : s.buf = some b) (hj : j < b.len) :
    hostRead j s = .next { s with
      readData := some (if Config.readSeesWrites s.draws then b.word j else l.buf0.word j)
      draws := s.draws + 1 } := by
  obtain ⟨c, cs, hc⟩ := List.exists_cons_of_ne_nil hp
  simp only [hostRead, hb, hj, if_true, hc, hl]

/-- A read of a word that does not exist is refused (R19, log 15). -/
theorem hostRead_outside {s : State} {j : Nat}
    (h : s.buf = none ∨ ∃ b, s.buf = some b ∧ b.len ≤ j) :
    hostRead j s = .refused .readOutsideBuffer := by
  rcases h with hb | ⟨b, hb, hj⟩
  · rw [hostRead, hb]
  · simp only [hostRead, hb, Nat.not_lt.mpr hj, if_false]

/-- Settles O54: a read does not wait; in flight it takes the word now or the word at launch. -/
theorem hostReadDuringDispatch : Obligations.HostReadDuringDispatch := by
  intro s b l j rest hpend hl hb hi
  have hstep : step s = hostRead j { s with inputs := rest } := step_of_inputs_cons hi (.inr rfl)
  refine ⟨fun hj => ?inside, fun hj => ?past⟩
  case inside =>
    have hread := hostRead_in_flight (s := { s with inputs := rest }) hpend hl hb hj
    refine ⟨_, _, hstep.trans hread, rfl, ?_, rfl⟩
    split
    · exact .inr rfl
    · exact .inl rfl
  case past => exact hstep.trans (hostRead_outside (.inr ⟨b, hb, hj⟩))

/-- Settles O59: with or without a dispatch in flight a read does not wait, and it looks for the buffer
and its length first. -/
theorem hostReadOutsideBuffer : Obligations.HostReadOutsideBuffer :=
  fun _ _ _ hi hout => (step_of_inputs_cons hi (.inr rfl)).trans (hostRead_outside hout)

theorem len_foldl_write (init : Memory) (b : PixelBuffer) :
    (init.foldl (fun b c => b.write c.1 c.2) b).len = b.len := by
  induction init generalizing b with
  | nil => rfl
  | cons c init ih => exact (ih _).trans (PixelBuffer.write_len ..)

/-- Writes that do not name the word, or a word past the length, leave it (R32, log 26). -/
theorem word_foldl_write_of_unstated {init : Memory} {b : PixelBuffer} {j : Nat}
    (h : (∀ c ∈ init, c.1 ≠ j) ∨ b.len ≤ j) :
    (init.foldl (fun b c => b.write c.1 c.2) b).word j = b.word j := by
  induction init generalizing b with
  | nil => rfl
  | cons c init ih =>
    have hhead : j ≠ c.1 ∨ b.len ≤ j := h.imp_left fun hne => (hne c List.mem_cons_self).symm
    have htail : (∀ d ∈ init, d.1 ≠ j) ∨ (b.write c.1 c.2).len ≤ j := by
      rw [PixelBuffer.write_len]
      exact h.imp_left fun hne d hd => hne d (List.mem_cons_of_mem c hd)
    exact (ih htail).trans (PixelBuffer.word_write_of_ne_or_len_le hhead c.2)

/-- Settles O55: a word holds what the last entry that names it states, since no later write is to
it, and a word without an entry, or past the length, is never written. -/
theorem bindGivesBuffer : Obligations.BindGivesBuffer := by
  intro s len init rest hpend hi
  refine ⟨_, _, step_of_inputs_cons hi (.inl hpend), rfl, len_foldl_write init _,
    bindBuffer_wf init (Memory.wf_nil len), ?stated, fun j hj => ?free, rfl, hpend, rfl⟩
  case stated =>
    rintro pre j v post rfl hpost hj
    rw [List.foldl_append, List.foldl_cons, word_foldl_write_of_unstated (.inl hpost)]
    exact PixelBuffer.word_write_same ((len_foldl_write pre _).symm ▸ hj) v
  case free => exact word_foldl_write_of_unstated hj

/-- Settles O56: with nothing pending the release takes place at once. -/
theorem releaseUnbinds : Obligations.ReleaseUnbinds :=
  fun _ _ hpend hi => step_of_inputs_cons hi (.inl hpend)

end Sys2Proof.Machine
end

section
/-! PROOF. Which move a step takes, and the requests that stand for others: 10_state.md rule R10,
30_encoding.md rules R44, R54 and R55, 43_gradient_kernel.md rules R80 and R83. -/

namespace Sys2Proof.Machine

/-- Settles O10: with no move to come and nothing pending, the block waits. -/
theorem idleStepChangesNothing : Obligations.IdleStepChangesNothing := by
  intro s hpend hi
  simp only [step, nextEvent, hi, advance, hpend]

theorem serveRequest_of_decode {q : Req} {i : Instr} (h : decode q = .ok i) (s : State) :
    serveRequest q s = exec i { s with launch := none } := by
  rw [serveRequest, h]

theorem decode_of_decodeTableWord {nbits w : Nat} {i : Instr}
    (h : decodeTableWord nbits w = some i) : decode (Req.ofTableWord nbits w) = .ok i := by
  rw [decodeTableWord] at h
  split at h
  case isTrue =>
    cases hdec : decode (Req.ofTableWord nbits w) with
    | error e => rw [hdec] at h; cases h
    | ok i' => rw [hdec] at h; exact congrArg Except.ok (Option.some.inj h)
  case isFalse => cases h

theorem runPending_of_getElem? {s : State} {k : Nat} {c : Coord}
    (h : s.pending[k % s.pending.length]? = some c) :
    runPending k s =
      exec c.instr { s with pending := s.pending.eraseIdx (k % s.pending.length) } := by
  rw [runPending, h]

/-- In flight, with no move or one that waits for completion, the invocation is picked freely. -/
theorem step_of_waiting {s : State} (hp : s.pending ≠ [])
    (hi : s.inputs = [] ∨ ∃ m rest, s.inputs = m :: rest ∧ m.waits = true) :
    step s = runPending (Config.pick s.draws) { s with draws := s.draws + 1 } := by
  rcases step_cases s with ⟨hnil, -, -⟩ | ⟨-, -, hrun⟩ | ⟨m, rest, hm, hserved, -⟩
  · exact absurd hnil hp
  · exact hrun
  · have hmove : m.waits = false := hserved.resolve_left hp
    rw [hm] at hi
    obtain hnil | ⟨m', rest', heq, hw⟩ := hi
    · cases hnil
    · obtain ⟨rfl, -⟩ := List.cons.inj heq
      exact absurd hw (Bool.eq_false_iff.mp hmove)

/-- Settles O6: the request does not wait where nothing is pending, and is served as it decodes. -/
theorem stepRunsDecodedRequest : Obligations.StepRunsDecodedRequest := by
  intro s q rest i hpend hi hdec
  exact (step_of_inputs_cons hi (.inl hpend)).trans (serveRequest_of_decode hdec _)

/-- Settles O7: a request that does not decode is refused before any operation runs. -/
theorem stepRefusesInvalidRequest : Obligations.StepRefusesInvalidRequest := by
  intro s q rest hpend hi hdec
  have hserve (u : State) : serveRequest q u = .refused .packOperandWidth := by
    rw [serveRequest, hdec]
  exact (step_of_inputs_cons hi (.inl hpend)).trans (hserve _)

/-- Settles O8: the table word's request is the head of the moves, and nothing is pending. -/
theorem stepRunsTableWord : Obligations.StepRunsTableWord := by
  intro s nbits w i h
  have hdec : decode (Req.ofTableWord nbits w) = .ok i := decode_of_decodeTableWord h
  exact stepRunsDecodedRequest (s.withFetchWord nbits w) _ s.inputs i rfl rfl hdec

/-- Settles O9: the dispatcher's choice is served at once, and with no choice, or a move that waits,
the free one is; both run the pending invocation of that number. -/
theorem stepRunsPendingInvocation : Obligations.StepRunsPendingInvocation := by
  intro s c
  refine ⟨fun k rest hi hc => ?picked, fun hi hc => ?free⟩
  case picked =>
    exact (step_of_inputs_cons hi (.inr rfl)).trans
      (runPending_of_getElem? (s := { s with inputs := rest }) hc)
  case free =>
    have hpend : s.pending ≠ [] := List.ne_nil_of_mem (List.mem_of_getElem? hc)
    exact (step_of_waiting hpend hi).trans
      (runPending_of_getElem? (s := { s with draws := s.draws + 1 }) hc)

/-- Settles O40: a tile is 8 by 8, and the request of a triple has zeros for its code and `opd`. -/
theorem dispatchTilesIsDispatch : Obligations.DispatchTilesIsDispatch := by
  refine ⟨fun s tx ty rest => ?step, fun c => ?request⟩
  case step =>
    exact (step_of_inputs_cons rfl (.inl rfl)).trans (step_of_inputs_cons rfl (.inl rfl)).symm
  case request =>
    rw [Coord.instr, encode, Req.toNat_ofFields_or]
    simp

/-- Rounding up to the tile side gives the least multiple of it (R83). -/
theorem roundUp_tileSide (n : Nat) :
    n ≤ Config.tileSide * ((n + (Config.tileSide - 1)) / Config.tileSide) ∧
      Config.tileSide * ((n + (Config.tileSide - 1)) / Config.tileSide) < n + 8 ∧
      Config.tileSide * ((n + (Config.tileSide - 1)) / Config.tileSide) % 8 = 0 := by
  simp only [Config.tileSide]
  omega

/-- Settles O46: both used extents are the image's, rounded up. -/
theorem conventionalGridCovers : Obligations.ConventionalGridCovers := by
  refine ⟨fun p => ?_, by decide⟩
  obtain ⟨hw, hw', hw8⟩ := roundUp_tileSide p.width
  obtain ⟨hh, hh', hh8⟩ := roundUp_tileSide p.height
  exact ⟨_, _, rfl, hw, hh, hw', hh', hw8, hh8⟩

/-- Settles O58: the assembler run on the six lines. -/
theorem assemblerLines : Obligations.AssemblerLines := by
  unfold Obligations.AssemblerLines
  decide

end Sys2Proof.Machine
end
